-- ==== Sys2Proof/Word.lean ====
section
/-! DEFINITION. The machine's one word type and its register index. -/

namespace Sys2Proof

/-- XLEN, PC_WIDTH and ADDR_WIDTH are all 8 bits (00_scope.md R5): register contents, memory cells, the program
counter, opcode and operand bytes. -/
abbrev Byte := BitVec 8

/-- The index of a general register, 0 to 7 (10_state.md R11). -/
abbrev RegIdx := Fin 8

end Sys2Proof
end

