-- ==== Sys2Proof/Syntax.lean ====
section
/-! DEFINITION. The nine instructions of 30_encoding.md R55, in the order of spec/opcode_table.json. An operand is the
whole operand byte (R54): a register operand over 7 is an instruction the engine can fetch and that faults when it
runs (40_cycle_and_dispatch.md R77). -/

namespace Sys2Proof

/-- The instructions. `a` is regA, the byte at pc + 1; `b` (regB) and `v` (value) are the byte at pc + 2. -/
inductive Instr where
  | hlt
  | prn (a : Byte)
  | ldi (a v : Byte)
  | mul (a b : Byte)
  | push (a : Byte)
  | pop (a : Byte)
  | call (a : Byte)
  | ret (a : Byte)
  | jmp (a : Byte)
  deriving DecidableEq, Repr

/-- The five instruction formats of 30_encoding.md R52. -/
inductive Format where
  | Z
  | R
  | RI
  | RR
  | ZR
  deriving DecidableEq, Repr

/-- The column "operand bytes read" of the table of R52. -/
def Format.operandBytes : Format → Nat
  | .Z => 0
  | .R => 1
  | .RI => 2
  | .RR => 2
  | .ZR => 1

/-- The column "used by" of the table of R52. -/
def Instr.format : Instr → Format
  | .hlt => .Z
  | .prn _ => .R
  | .ldi _ _ => .RI
  | .mul _ _ => .RR
  | .push _ => .R
  | .pop _ => .R
  | .call _ => .R
  | .ret _ => .ZR
  | .jmp _ => .R

/-- The mnemonic of the opcode table (R55). -/
def Instr.mnemonic : Instr → String
  | .hlt => "HLT"
  | .prn _ => "PRN"
  | .ldi _ _ => "LDI"
  | .mul _ _ => "MUL"
  | .push _ => "PUSH"
  | .pop _ => "POP"
  | .call _ => "CALL"
  | .ret _ => "RET"
  | .jmp _ => "JMP"

/-- The operand bytes that name a register, in the order they are checked (40_cycle_and_dispatch.md R77): the first
operand of every instruction that has one, and MUL's second. LDI's second is an immediate. -/
def Instr.registerOperands : Instr → List Byte
  | .hlt => []
  | .prn a => [a]
  | .ldi a _ => [a]
  | .mul a b => [a, b]
  | .push a => [a]
  | .pop a => [a]
  | .call a => [a]
  | .ret a => [a]
  | .jmp a => [a]

/-- The instructions that use the stack pointer, register 7, whatever their operand is (10_state.md R13). -/
def Instr.usesStack : Instr → Bool
  | .hlt => false
  | .prn _ => false
  | .ldi _ _ => false
  | .mul _ _ => false
  | .push _ => true
  | .pop _ => true
  | .call _ => true
  | .ret _ => true
  | .jmp _ => false

end Sys2Proof
end

