-- ==== Sys2Proof/WellFormed.lean ====
section
/-! DEFINITION. Well-formed instructions: every register operand names a register (30_encoding.md R54). An ill-formed
one can still be fetched; the step that runs it faults (40_cycle_and_dispatch.md R77). -/

namespace Sys2Proof

/-- A register operand byte is valid only from 0 to 7 (R54); the upper five bits are not ignored. -/
def validRegister (o : Byte) : Bool := o.toNat ≤ 7

/-- Every register operand of the instruction is valid. -/
def Instr.wellFormed (i : Instr) : Bool := i.registerOperands.all validRegister

end Sys2Proof
end

