-- ==== Sys2Proof/Decode.lean ====
section
/-! DEFINITION. Decoding and encoding, from the opcode map of 30_encoding.md R55 and the layouts of R52. -/

namespace Sys2Proof

/-! The opcode bytes, as the binary column of R55 writes them. -/

def opHLT : Byte := 0b00000001
def opPRN : Byte := 0b01000111
def opLDI : Byte := 0b10000010
def opMUL : Byte := 0b10100010
def opPUSH : Byte := 0b01000101
def opPOP : Byte := 0b01000110
def opCALL : Byte := 0b01010000
def opRET : Byte := 0b00010001
def opJMP : Byte := 0b01010100

/-- The nine defined opcodes, the set of R70's pseudocode. -/
def definedOpcodes : List Byte :=
  [opHLT, opPRN, opLDI, opMUL, opPUSH, opPOP, opCALL, opRET, opJMP]

/-- `count <- ir[7:6]`, a number 0 to 3 (40_cycle_and_dispatch.md R72). -/
def count (ir : Byte) : Nat := (ir.extractLsb' 6 2).toNat

/-- `setsPC <- ir[4]` (R72). -/
def setsPC (ir : Byte) : Bool := ir.getLsbD 4

/-- How many operand bytes the operation reads (R74): none for HLT, two for LDI and MUL, one otherwise; RET reads one
although its count is 0 (30_encoding.md R53). Read only for a defined opcode. -/
def nops (ir : Byte) : Nat :=
  if ir = opHLT then 0 else if ir = opLDI ∨ ir = opMUL then 2 else 1

/-- Why no instruction is read from some bytes. -/
inductive DecodeError where
  /-- There is no byte at all (the engine never asks this: pc always addresses a cell, R71). -/
  | noBytes
  /-- The opcode byte is none of the nine (R57, R73). -/
  | unknownOpcode (ir : Byte)
  /-- The opcode is defined and an operand byte it uses is missing (R75). -/
  | missingOperand (ir : Byte)
  deriving DecidableEq, Repr

/-- The formats with one operand byte, R and ZR. -/
def decodeOne (ir : Byte) (mk : Byte → Instr) : List Byte → Except DecodeError (Instr × List Byte)
  | a :: rest => .ok (mk a, rest)
  | [] => .error (.missingOperand ir)

/-- The formats with two operand bytes, RI and RR. -/
def decodeTwo (ir : Byte) (mk : Byte → Byte → Instr) : List Byte → Except DecodeError (Instr × List Byte)
  | a :: b :: rest => .ok (mk a b, rest)
  | [_] => .error (.missingOperand ir)
  | [] => .error (.missingOperand ir)

/-- The dispatcher's comparison of the whole opcode byte with the nine (R56, R73), then the operand bytes the
instruction uses and no others (R74). The rest of the bytes is returned unread. -/
def decode : List Byte → Except DecodeError (Instr × List Byte)
  | [] => .error .noBytes
  | ir :: rest =>
    if ir = opHLT then .ok (.hlt, rest)
    else if ir = opPRN then decodeOne ir .prn rest
    else if ir = opLDI then decodeTwo ir .ldi rest
    else if ir = opMUL then decodeTwo ir .mul rest
    else if ir = opPUSH then decodeOne ir .push rest
    else if ir = opPOP then decodeOne ir .pop rest
    else if ir = opCALL then decodeOne ir .call rest
    else if ir = opRET then decodeOne ir .ret rest
    else if ir = opJMP then decodeOne ir .jmp rest
    else .error (.unknownOpcode ir)

/-- The opcode byte of an instruction (R55). -/
def Instr.opcode : Instr → Byte
  | .hlt => opHLT
  | .prn _ => opPRN
  | .ldi _ _ => opLDI
  | .mul _ _ => opMUL
  | .push _ => opPUSH
  | .pop _ => opPOP
  | .call _ => opCALL
  | .ret _ => opRET
  | .jmp _ => opJMP

/-- The bytes of an instruction at ascending addresses (R52); RET's operand byte is always written (R60). -/
def encode : Instr → List Byte
  | .hlt => [opHLT]
  | .prn a => [opPRN, a]
  | .ldi a v => [opLDI, a, v]
  | .mul a b => [opMUL, a, b]
  | .push a => [opPUSH, a]
  | .pop a => [opPOP, a]
  | .call a => [opCALL, a]
  | .ret a => [opRET, a]
  | .jmp a => [opJMP, a]

/-- The three bytes of the longest instruction, least significant first, of a word whose bits above nbits are 0. -/
def tableBytes (nbits w : Nat) : List Byte :=
  let v := w % 2 ^ nbits
  [BitVec.ofNat 8 v, BitVec.ofNat 8 (v / 2 ^ 8), BitVec.ofNat 8 (v / 2 ^ 16)]

/-- The instruction the decoder reads from a word whose bits are numbered as spec/opcode_table.json numbers them. -/
def decodeTableWord (nbits w : Nat) : Option Instr :=
  match decode (tableBytes nbits w) with
  | .ok (i, _) => some i
  | .error _ => none

end Sys2Proof
end

