-- ==== Sys2Proof/Config.lean ====
section
/-! DEFINITION. The implementation parameters of 00_scope.md R5 that the model reads. The two OPEN parameters, REG_INIT
and MEM_INIT, are arguments of State.launch (Machine/HostPort.lean); State.reset names zeros for them (log 1, 2). -/

namespace Sys2Proof.Config

/-- MEM_SIZE: 256 cells, at addresses 0 to 255 (R5, R30). -/
def memSize : Nat := 256

/-- SP_INDEX: register 7 is the stack pointer (R5, R12). -/
def spIndex : RegIdx := 7

/-- PC_RESET (R5, R22). -/
def pcReset : Byte := 0

/-- SP_RESET: 0xF3 (R5, R22). -/
def spReset : Byte := 0xF3

/-- DESIGN CHOICE (log 1, unsafe): what registers 0 to 6 hold in State.reset. The spec leaves them open (REG_INIT). -/
def regReset : Byte := 0

end Sys2Proof.Config
end

