-- ==== Sys2Proof/Machine/State.lean ====
section
/-! DEFINITION. The state of the machine: the six components of 10_state.md R10 and nothing else; its reset; and the
reasons for which a step has no next state. -/

namespace Sys2Proof.Machine

/-- The run state (10_state.md R15). -/
inductive Run where
  | running
  | halted
  | faulted
  deriving DecidableEq, Repr

/-- The three fault kinds (60_exceptions.md R140). -/
inductive Cause where
  | addressError
  | unsupportedOperationError
  | unknownOpcodeError
  deriving DecidableEq, Repr

/-- The detail of an AddressError (60_exceptions.md R141). -/
inductive Detail where
  | operandFetch
  | registerIndex
  | pcAdvance
  deriving DecidableEq, Repr

/-- The fault record (10_state.md R16; 60_exceptions.md R146). -/
structure FaultRecord where
  cause : Cause
  code : Nat
  pc : Byte
  opcode : Byte
  detail : Option Detail
  deriving DecidableEq, Repr

/-- Memory: (address, byte) pairs in the canonical form Memory.wf (Machine/Ops.lean), where an unlisted address reads as
Memory.unlisted. It covers the addresses 0 to 255 (20_memory.md R30). -/
abbrev Memory := List Host.Cell

/-- The whole state (10_state.md R10). -/
structure State where
  /-- `x[0]` to `x[7]`; `x[7]` is the stack pointer (R11, R12). -/
  regs : Vector Byte 8
  /-- The address of the next instruction's opcode byte (R14). -/
  pc : Byte
  /-- The run state; the halted flag is `run = halted` (R15). -/
  run : Run
  /-- The fault record, none unless `run = faulted` (R16). -/
  fault : Option FaultRecord
  /-- The values emitted since reset, oldest first (R17). -/
  out : List Byte
  /-- The 256 memory cells (R20). -/
  mem : Memory
  deriving DecidableEq, Repr

/-- Why there is no next state. The three fault kinds of the engine are NOT here: fault entry is a next state whose run
state is `faulted` (log 4). -/
inductive Fault where
  /-- Raised by the step alone, when `run` is Halted: "there is no step" (40_cycle_and_dispatch.md R82). No instruction
  raises it. Safe (log 5). -/
  | noStepHalted
  /-- Raised by the step alone, when `run` is Faulted: "there is no step" (40_cycle_and_dispatch.md R82). No instruction
  raises it. Safe (log 5). -/
  | noStepFaulted
  deriving DecidableEq, Repr

/-- Why an instruction has no meaning. -/
inductive Refusal where
  /-- Raised by exec's arm of an instruction not modelled yet, naming it as the opcode table does. No arm raises it: every
  instruction of the table has its meaning. Safe. -/
  | notModelled (mnemonic : String)
  deriving DecidableEq, Repr

/-- The outcome of a step or of a meaning. -/
abbrev Result := Host.Outcome State Fault Refusal

/-- The state at reset release (10_state.md R22; 70_reset_and_hazards.md R170), with the two open parameters at the
values the log names: REG_INIT all 0 (log 1) and nothing listed in memory (log 2). State.launch takes them as arguments. -/
def State.reset : State where
  regs := #v[Config.regReset, Config.regReset, Config.regReset, Config.regReset, Config.regReset, Config.regReset,
    Config.regReset, Config.spReset]
  pc := Config.pcReset
  run := .running
  fault := none
  out := []
  mem := []

end Sys2Proof.Machine
end

