-- ==== Sys2Proof/Machine/Ops.lean ====
section
/-! DEFINITION. The named operations over memory, registers, the program counter, the output and the run state, and the
one operation that takes a fault. A return from a fault does not exist (60_exceptions.md R148). -/

namespace Sys2Proof.Machine

/-! ## Memory (20_memory.md) -/

/-- What an unlisted address reads as. DESIGN CHOICE (log 2, unsafe): the spec leaves the launch contents open. -/
def Memory.unlisted : Byte := 0

/-- The byte at an address (R30, R31). -/
def Memory.read : Memory → Nat → Byte
  | [], _ => Memory.unlisted
  | c :: rest, a => if c.1 = a then c.2 else Memory.read rest a

/-- A new entry before the first entry of a higher address. -/
def Memory.insert (a : Nat) (v : Byte) : Memory → Memory
  | [] => [(a, v)]
  | c :: rest => if a < c.1 then (a, v) :: c :: rest else c :: Memory.insert a v rest

/-- Memory without an entry for an address. -/
def Memory.erase (m : Memory) (a : Nat) : Memory := m.filter fun c => c.1 ≠ a

/-- One byte written (R31, R32); the canonical form is kept. -/
def Memory.write (m : Memory) (a : Nat) (v : Byte) : Memory :=
  if v = Memory.unlisted then m.erase a else (m.erase a).insert a v

/-- The canonical form: addresses strictly rising, each within the 256 cells, no entry equal to what an unlisted address
reads as. -/
abbrev Memory.wf (m : Memory) : Prop :=
  m.Pairwise (fun c d => c.1 < d.1) ∧ ∀ c ∈ m, c.1 < Config.memSize ∧ c.2 ≠ Memory.unlisted

/-- `MemRead(addr, 1)` (00_scope.md R6): every 8-bit address is a cell, so it cannot fail (20_memory.md R35). -/
def State.memRead (s : State) (a : Byte) : Byte := s.mem.read a.toNat

/-- `MemWrite(addr, 1, v)` (00_scope.md R6). -/
def State.memWrite (s : State) (a v : Byte) : State := { s with mem := s.mem.write a.toNat v }

/-! ## Registers, program counter, output, run state (10_state.md) -/

/-- `x[i]` (R11): no register is hard-wired. -/
def State.reg (s : State) (r : RegIdx) : Byte := s.regs[r.val]

/-- `x[i] <- v` (R11). -/
def State.setReg (s : State) (r : RegIdx) (v : Byte) : State := { s with regs := s.regs.set r.val v }

/-- `SP`, another name of `x[7]` (R12). -/
def State.sp (s : State) : Byte := s.reg Config.spIndex

/-- `pc <- target` (R14). -/
def State.setPc (s : State) (v : Byte) : State := { s with pc := v }

/-- `Emit(v)`: out <- out ++ [v] (R17). -/
def State.emit (s : State) (v : Byte) : State := { s with out := s.out ++ [v] }

/-- `run <- Halted` (R15). -/
def State.halt (s : State) : State := { s with run := .halted }

/-! ## Taking a fault (60_exceptions.md) -/

/-- What a check raises: `raise AddressError(detail)`, `raise UnsupportedOperationError`, `raise UnknownOpcodeError`. -/
inductive Reason where
  | addressError (d : Detail)
  | unsupportedOperationError
  | unknownOpcodeError
  deriving DecidableEq, Repr

/-- The fault kind raised (R140). -/
def Reason.cause : Reason → Cause
  | .addressError _ => .addressError
  | .unsupportedOperationError => .unsupportedOperationError
  | .unknownOpcodeError => .unknownOpcodeError

/-- The record's fifth field, for an AddressError only (R16). -/
def Reason.detail : Reason → Option Detail
  | .addressError d => some d
  | .unsupportedOperationError => none
  | .unknownOpcodeError => none

/-- The number of a cause (R144); 0 means no fault and is no cause's. -/
def Cause.code : Cause → Nat
  | .addressError => 1
  | .unsupportedOperationError => 2
  | .unknownOpcodeError => 3

/-- The number of an AddressError's detail (R144). -/
def Detail.number : Detail → Nat
  | .operandFetch => 1
  | .registerIndex => 2
  | .pcAdvance => 3

/-- Fault entry (R146): `run <- Faulted`, `fault <- (cause, code, pc, opcode, detail)` with the pc at the start of the
step and the opcode fetched there, and nothing else. -/
def State.takeFault (s : State) (r : Reason) (ir : Byte) : State :=
  { s with
    run := .faulted
    fault := some { cause := r.cause, code := r.cause.code, pc := s.pc, opcode := ir, detail := r.detail } }

/-! ## The stack (20_memory.md R42) -/

/-- The push of 42_stack.md R110: decrement first; the register is read after the decrement (92_eei_decisions.md D16). -/
def State.push (s : State) (a : RegIdx) : State :=
  let s1 := s.setReg Config.spIndex (s.sp - 1)
  s1.memWrite s1.sp (s1.reg a)

/-- The pop of 42_stack.md R111: load, clear the cell the stack pointer addresses now, increment, in that order. -/
def State.pop (s : State) (a : RegIdx) : State :=
  let s1 := s.setReg a (s.memRead s.sp)
  let s2 := s1.memWrite s1.sp 0
  s2.setReg Config.spIndex (s2.sp + 1)

end Sys2Proof.Machine
end

