-- ==== Sys2Proof/Machine/Cycle.lean ====
section
/-! DEFINITION. The front of the step (40_cycle_and_dispatch.md R70): whether there is a step at all, fetch, decode and
operand fetch. -/

namespace Sys2Proof.Machine

/-- Up to n bytes at ascending addresses from a, as far as there are cells: addresses do not wrap (20_memory.md R35). -/
def Memory.bytesFrom (m : Memory) : Nat → Nat → List Byte
  | 0, _ => []
  | n + 1, a => if a < Config.memSize then m.read a :: m.bytesFrom n (a + 1) else []

/-- The bytes the decoder may take the next instruction from: the opcode byte and up to two after it, those that exist.
It takes only those the instruction uses (R74; log 7). -/
def State.fetchBytes (s : State) : List Byte := s.mem.bytesFrom 3 s.pc.toNat

/-- `ir <- MemRead(pc, 1)` (R71): it never faults. -/
def State.fetchOpcode (s : State) : Byte := s.memRead s.pc

/-- What the front of a step finds. -/
inductive Front where
  /-- There is no step (R82). -/
  | stop (f : Fault)
  /-- A check of the fetch or decode raises a fault. -/
  | raise (r : Reason) (ir : Byte)
  /-- An instruction, to be executed. -/
  | run (i : Instr)
  deriving DecidableEq, Repr

/-- The reason a decoding error raises: UnknownOpcodeError (R73) or AddressError(OperandFetch) (R75). noBytes cannot occur,
since pc always addresses a cell; it would be the missing operand of a fetch. -/
def decodeReason : DecodeError → Reason
  | .noBytes => .addressError .operandFetch
  | .unknownOpcode _ => .unknownOpcodeError
  | .missingOperand _ => .addressError .operandFetch

/-- R70 up to the operand fetch: a step exists only when `run` = Running; the opcode check stands before the operand fetch
check (R80). -/
def State.front (s : State) : Front :=
  match s.run with
  | .halted => .stop .noStepHalted
  | .faulted => .stop .noStepFaulted
  | .running =>
    match decode s.fetchBytes with
    | .ok (i, _) => .run i
    | .error e => .raise (decodeReason e) s.fetchOpcode

/-- Bytes stored at ascending addresses from a, as far as there are cells. -/
def Memory.storeFrom (m : Memory) : Nat → List Byte → Memory
  | _, [] => m
  | a, v :: rest => if a < Config.memSize then (m.write a v).storeFrom (a + 1) rest else m

end Sys2Proof.Machine
end

