-- ==== Sys2Proof/Machine/Operands.lean ====
section
/-! DEFINITION. The operand forms (30_encoding.md R54), the checks that stand before an instruction's effect
(40_cycle_and_dispatch.md R70), the program-counter advance, and the frame every instruction runs in. -/

namespace Sys2Proof.Machine

/-- A register operand: the byte's value is the register's index, valid from 0 to 7 only, never masked (R54, R77). -/
def regOperand (o : Byte) : Except Reason RegIdx :=
  if h : o.toNat < 8 then .ok ⟨o.toNat, h⟩ else .error (.addressError .registerIndex)

/-- The two register operands of format RR, the first checked first (R77, R80). -/
def regOperands (a b : Byte) : Except Reason (RegIdx × RegIdx) := do
  let ra ← regOperand a
  let rb ← regOperand b
  pure (ra, rb)

/-- An immediate operand is the byte itself, never checked (R54, R77); here beside LDI's register operand. -/
def regImmOperands (a v : Byte) : Except Reason (RegIdx × Byte) := do
  let ra ← regOperand a
  pure (ra, v)

/-- Format Z has no operand. -/
def noOperand : Except Reason Unit := .ok ()

/-- `if pc + nops > 255: raise AddressError(OperandFetch)`, over the integers (R75). -/
def checkOperandFetch (ir pc : Byte) : Except Reason Unit :=
  if pc.toNat + nops ir > 255 then .error (.addressError .operandFetch) else .ok ()

/-- `if setsPC = 0 and pc + count + 1 > 255: raise AddressError(PcAdvance)`, over the integers (R79). -/
def checkPcAdvance (ir pc : Byte) : Except Reason Unit :=
  if setsPC ir = false ∧ pc.toNat + count ir + 1 > 255 then .error (.addressError .pcAdvance) else .ok ()

/-- `if setsPC = 0: pc <- pc + count + 1` (R78), pc0 being the address of the opcode byte just executed; decided by bit 4
of the opcode alone. -/
def advancePc (ir pc0 : Byte) (s : State) : State :=
  if setsPC ir then s else s.setPc (BitVec.ofNat 8 (pc0.toNat + count ir + 1))

/-- A step commits, or takes the fault raised, having written nothing else (R80, R146, R147). -/
def conclude (ir : Byte) (s : State) : Except Reason State → Result
  | .ok t => .next t
  | .error r => .next (s.takeFault r ir)

/-- R70 from the operand fetch on: the checks in R80's order, then the instruction's own effect, then the advance. The
operand-fetch check always passes where the step calls this, since it has read the operand bytes (log 6). -/
def runChecked {α : Type} (ir : Byte) (operands : Except Reason α) (effect : α → State → Except Reason State)
    (s : State) : Result :=
  conclude ir s do
    checkOperandFetch ir s.pc
    let o ← operands
    checkPcAdvance ir s.pc
    let t ← effect o s
    pure (advancePc ir s.pc t)

end Sys2Proof.Machine
end

