-- ==== Sys2Proof/Machine/Control.lean ====
section
/-! DEFINITION. CALL, RET, JMP and HLT (43_control.md). CALL and RET are the source's variant (a) (92_eei_decisions.md
D3). -/

namespace Sys2Proof.Machine

/-- R120: push `x[a]`, then `pc <- MemRead(x[7], 1)`, reading back the byte just written; no advance (setsPC = 1). -/
def execCall (a : Byte) (s : State) : Result :=
  runChecked opCALL (regOperand a) (fun r t => let u := t.push r; .ok (u.setPc (u.memRead u.sp))) s

/-- R121: pop into `x[a]`, then `pc <- x[a]`, read after the pop; no advance (setsPC = 1). -/
def execRet (a : Byte) (s : State) : Result :=
  runChecked opRET (regOperand a) (fun r t => let u := t.pop r; .ok (u.setPc (u.reg r))) s

/-- R122: `pc <- x[a]`; no advance (setsPC = 1). -/
def execJmp (a : Byte) (s : State) : Result :=
  runChecked opJMP (regOperand a) (fun r t => .ok (t.setPc (t.reg r))) s

/-- R123: `run <- Halted`; then `pc <- pc + 1`, since bit 4 of 0x01 is 0. -/
def execHlt (s : State) : Result :=
  runChecked opHLT noOperand (fun _ t => .ok t.halt) s

end Sys2Proof.Machine
end

