-- ==== Sys2Proof/Machine/Alu.lean ====
section
/-! DEFINITION. The ALU (41_load_alu_output.md R93 to R96): it reads two registers and writes one, and has no flag
outputs. Of its operations the dispatcher uses MUL only; ADD has no opcode (R94). -/

namespace Sys2Proof.Machine

/-- The operation select. The source speaks of an "op name"; no encoding of it is given (91_not_in_source.md N18), so a
select other than the two is any other name (log 9). -/
inductive AluOp where
  | add
  | mul
  | other (name : String)
  deriving DecidableEq, Repr

/-- `f_op`: the exact unsigned result reduced mod 256 (R94, R95); any other select raises UnsupportedOperationError (R96). -/
def aluFunction : AluOp → Byte → Byte → Except Reason Byte
  | .add, x, y => .ok (BitVec.ofNat 8 (x.toNat + y.toNat))
  | .mul, x, y => .ok (BitVec.ofNat 8 (x.toNat * y.toNat))
  | .other _, _, _ => .error .unsupportedOperationError

/-- `x[d] <- f_op(x[d], x[s])` (R93): both registers are read before the write. -/
def aluApply (op : AluOp) (d src : RegIdx) (s : State) : Except Reason State := do
  let v ← aluFunction op (s.reg d) (s.reg src)
  pure (s.setReg d v)

end Sys2Proof.Machine
end

