-- ==== Sys2Proof/Machine/LoadAluOutput.lean ====
section
/-! DEFINITION. LDI, MUL and PRN (41_load_alu_output.md). -/

namespace Sys2Proof.Machine

/-- R90: `x[a] <- v`; then `pc <- pc + 3`. -/
def execLdi (a v : Byte) (s : State) : Result :=
  runChecked opLDI (regImmOperands a v) (fun o t => .ok (t.setReg o.1 o.2)) s

/-- R91: `x[a] <- (x[a] * x[b]) mod 256` by the ALU; then `pc <- pc + 3`. -/
def execMul (a b : Byte) (s : State) : Result :=
  runChecked opMUL (regOperands a b) (fun o t => aluApply .mul o.1 o.2 t) s

/-- R92: `Emit(x[a])`; then `pc <- pc + 2`. -/
def execPrn (a : Byte) (s : State) : Result :=
  runChecked opPRN (regOperand a) (fun r t => .ok (t.emit (t.reg r))) s

end Sys2Proof.Machine
end

