-- ==== Sys2Proof/Machine/Stack.lean ====
section
/-! DEFINITION. PUSH and POP (42_stack.md). -/

namespace Sys2Proof.Machine

/-- R110: `x[7] <- x[7] - 1; MemWrite(x[7], 1, x[a])`; then `pc <- pc + 2`. -/
def execPush (a : Byte) (s : State) : Result :=
  runChecked opPUSH (regOperand a) (fun r t => .ok (t.push r)) s

/-- R111: `x[a] <- MemRead(x[7], 1); MemWrite(x[7], 1, 0); x[7] <- x[7] + 1`; then `pc <- pc + 2`. -/
def execPop (a : Byte) (s : State) : Result :=
  runChecked opPOP (regOperand a) (fun r t => .ok (t.pop r)) s

end Sys2Proof.Machine
end

