-- ==== Sys2Proof/Machine/Step.lean ====
section
/-! DEFINITION. The step (40_cycle_and_dispatch.md R70), the engine's only transition. -/

namespace Sys2Proof.Machine

/-- One step: no step, a fault taken at fetch or decode, or the decoded instruction executed. -/
def step (s : State) : Host.Outcome State Fault Refusal :=
  match s.front with
  | .stop f => .fault f
  | .raise r ir => .next (s.takeFault r ir)
  | .run i => exec i s

/-- s with a table word's bytes where the next instruction is fetched, at pc, pc + 1 and pc + 2 (log 3, 12). -/
def State.withFetchWord (s : State) (nbits w : Nat) : State :=
  { s with mem := s.mem.storeFrom s.pc.toNat (tableBytes nbits w) }

end Sys2Proof.Machine
end

