-- ==== Sys2Proof/Machine/Flags.lean ====
section
/-! DEFINITION. There is no flags register and no condition code: "No instruction sets or tests any such thing"
(10_state.md R18), so no flag computation stands here. The source's halted flag and the fault status are views of the
state (10_state.md R15; 70_reset_and_hazards.md R182). -/

namespace Sys2Proof.Machine

/-- The halted flag, and the halted status output: true exactly when `run` = Halted (R15, R182). -/
def State.haltedFlag (s : State) : Bool := s.run == .halted

/-- The fault status output's cause code: the record's code, 0 when there is none (R144, R182). -/
def State.faultCode (s : State) : Nat :=
  match s.fault with
  | none => 0
  | some f => f.code

/-- The fault status output's detail as a number, where there is one (R144, R182). -/
def State.faultDetail (s : State) : Option Nat := s.fault.bind fun f => f.detail.map Detail.number

/-- The fault status output's pc (R182). -/
def State.faultPc (s : State) : Option Byte := s.fault.map FaultRecord.pc

/-- The fault status output's opcode (R182). -/
def State.faultOpcode (s : State) : Option Byte := s.fault.map FaultRecord.opcode

end Sys2Proof.Machine
end

