-- ==== Sys2Proof/Machine/HostPort.lean ====
section
/-! DEFINITION. What the world outside may do to the engine (70_reset_and_hazards.md R171, R173, R174): load memory while the
engine is held in reset, release reset, assert reset. The two open parameters of 92_eei_decisions.md D14 are arguments
here. -/

namespace Sys2Proof.Machine

/-- The memory whose 256 cells hold the given bytes, in canonical form. -/
def Memory.ofCells (f : Nat → Byte) : Memory :=
  ((List.range Config.memSize).map fun a => (a, f a)).filter fun c => c.2 ≠ Memory.unlisted

/-- The launch state (R170) for a given REG_INIT (registers 0 to 6) and MEM_INIT (cells 0 to 255). -/
def State.launch (regInit : Fin 7 → Byte) (memInit : Nat → Byte) : State where
  regs := #v[regInit 0, regInit 1, regInit 2, regInit 3, regInit 4, regInit 5, regInit 6, Config.spReset]
  pc := Config.pcReset
  run := .running
  fault := none
  out := []
  mem := Memory.ofCells memInit

/-- The launch state with a program image at address 0 upward (R170, R171) over otherwise given cells; an image longer than
the memory is refused (93_implementation_defined.md U16). -/
def State.launchImage (regInit : Fin 7 → Byte) (image : List Byte) (rest : Nat → Byte) : Option State :=
  if image.length ≤ Config.memSize then some (State.launch regInit fun a => image.getD a (rest a)) else none

/-- Reset asserted in any state and released (R173): a new launch; nothing of the old state is kept. -/
def State.assertReset (_ : State) (regInit : Fin 7 → Byte) (memInit : Nat → Byte) : State :=
  State.launch regInit memInit

end Sys2Proof.Machine
end

