-- ==== Sys2Proof/Safety.lean ====
section
/-! DEFINITION. What counts as a safe run, and the invariant of every state a run reaches, in the terms claims use. -/

namespace Sys2Proof.Machine

/-- A run has ended well only when `run` is Halted (70_reset_and_hazards.md R175). -/
def State.endedWell (s : State) : Prop := s.run = .halted

/-- A run that is Faulted has gone wrong: Faulted is never a good ending (60_exceptions.md R146). -/
def State.safe (s : State) : Prop := s.run ≠ .faulted

/-- The record that an AddressError leaves (60_exceptions.md R141, R144, R146): code 1, the pc at the start of the step, the
opcode fetched there, and the detail. -/
def addressErrorRecord (d : Detail) (ir pc : Byte) : FaultRecord :=
  { cause := .addressError, code := 1, pc := pc, opcode := ir, detail := some d }

/-- The record that an UnknownOpcodeError leaves (60_exceptions.md R142, R144, R146): code 3 and no detail. -/
def unknownOpcodeRecord (ir pc : Byte) : FaultRecord :=
  { cause := .unknownOpcodeError, code := 3, pc := pc, opcode := ir, detail := none }

/-- A fault writes `run` and `fault` and nothing else (60_exceptions.md R146, R147). -/
def State.faultedWith (s : State) (f : FaultRecord) : State := { s with run := .faulted, fault := some f }

/-- A fault record as 10_state.md R16 lays it out: the code is the cause's number (60_exceptions.md R144), and there is a
detail exactly for an AddressError. -/
structure FaultRecord.Shaped (f : FaultRecord) : Prop where
  code_eq : f.code = (match f.cause with
    | .addressError => 1
    | .unsupportedOperationError => 2
    | .unknownOpcodeError => 3)
  detail_iff : f.detail.isSome ↔ f.cause = .addressError

/-- What every state a run reaches satisfies: memory in canonical form (its addresses within the 256 cells of
20_memory.md R30), and the fault record present exactly in a Faulted state, where it has its shape and its opcode and pc
are those of the faulting instruction, still there (10_state.md R16; 60_exceptions.md R146, R147). -/
structure State.Inv (s : State) : Prop where
  mem_wf : s.mem.wf
  no_record : s.run ≠ .faulted → s.fault = none
  record : s.run = .faulted →
    ∃ f, s.fault = some f ∧ f.Shaped ∧ f.pc = s.pc ∧ f.opcode = s.memRead s.pc

/-- The state after n steps, where each has a next state (the engine sets no bound: 40_cycle_and_dispatch.md R81). -/
def runSteps (n : Nat) (s : State) : Result := Host.Core.run Sys2Proof.core n s

end Sys2Proof.Machine
end

