-- ==== Sys2Proof/Certificates/Slice0/Obligations.lean ====
section
/-! DEFINITION. The statements for the provers. A statement whose docstring names a decision D<n> rests on a choice of
92_eei_decisions.md, which the spec marks as its own and not its source's. -/

open Sys2Proof Sys2Proof.Machine

/-! ## Encoding -/

/-- Decoding and encoding agree in both directions: some bytes decode to an instruction and a rest exactly when they are
its encoding followed by that rest (30_encoding.md sections 1 to 3; RET's operand byte is decision D6). -/
def Obligations.DecodeInvertsEncode : Prop :=
  ∀ (bytes : List Byte) (i : Instr) (rest : List Byte),
    decode bytes = .ok (i, rest) ↔ bytes = encode i ++ rest

/-- R56: the table's nine opcodes are distinct; each with any operand bytes after it decodes to its own instruction, and no
other opcode byte decodes at all. -/
def Obligations.DecodeByWholeOpcodeByte : Prop :=
  let table : List (String × Byte) :=
    [("HLT", 0x01), ("PRN", 0x47), ("LDI", 0x82), ("MUL", 0xA2), ("PUSH", 0x45), ("POP", 0x46), ("CALL", 0x50),
      ("RET", 0x11), ("JMP", 0x54)]
  (table.map Prod.snd).Nodup ∧
    (∀ row ∈ table, ∀ (x y : Byte) (rest : List Byte),
      ∃ i rem, decode (row.2 :: x :: y :: rest) = .ok (i, rem) ∧ i.mnemonic = row.1) ∧
    (∀ (ir : Byte) (rest : List Byte) (i : Instr) (rem : List Byte),
      decode (ir :: rest) = .ok (i, rem) → (i.mnemonic, ir) ∈ table)

/-- Which bytes decode to nothing, and why: no byte at all, an opcode byte that is none of the nine (decision D2), or a
defined one with fewer operand bytes after it than its operation uses (decisions D6, D7). -/
def Obligations.DecodeRejectsExactly : Prop :=
  let nine : List Byte := [0x01, 0x47, 0x82, 0xA2, 0x45, 0x46, 0x50, 0x11, 0x54]
  decode [] = .error .noBytes ∧ ∀ (ir : Byte) (rest : List Byte),
    (decode (ir :: rest) = .error (.unknownOpcode ir) ↔ ir ∉ nine) ∧
    (decode (ir :: rest) = .error (.missingOperand ir) ↔
      ir ∈ nine ∧ rest.length < (if ir = 0x01 then 0 else if ir = 0x82 ∨ ir = 0xA2 then 2 else 1))

/-- R72: count is bits 7:6 and setsPC is bit 4 of the opcode; their values for the nine instructions. -/
def Obligations.OpcodeFields : Prop :=
  (∀ ir : Byte, count ir = ir.toNat / 64 ∧ count ir ≤ 3 ∧ setsPC ir = decide (ir.toNat / 16 % 2 = 1)) ∧
    ∀ i : Instr, count i.opcode = (match i with
        | .hlt | .ret _ => 0
        | .prn _ | .push _ | .pop _ | .call _ | .jmp _ => 1
        | .ldi _ _ | .mul _ _ => 2) ∧
      setsPC i.opcode = (match i with
        | .call _ | .ret _ | .jmp _ => true
        | .hlt | .prn _ | .ldi _ _ | .mul _ _ | .push _ | .pop _ => false)

/-- Words written out from the spec's worked encodings (95_test_vectors.md section 2), first byte least significant. -/
def Obligations.WordsOfTheSpecDecode : Prop :=
  decodeTableWord 24 0x080082 = some (.ldi 0 8) ∧ decodeTableWord 24 0x0100A2 = some (.mul 0 1) ∧
    decodeTableWord 16 0x0745 = some (.push 7) ∧ decodeTableWord 16 0x0211 = some (.ret 2) ∧
    decodeTableWord 8 0x01 = some .hlt ∧ decodeTableWord 24 0x0100A0 = none

/-! ## The step -/

/-- A Running step is exec of the instruction that the bytes at pc decode to, with nothing added around it: exec itself
advances pc (40_cycle_and_dispatch.md sections 1 and 4). -/
def Obligations.StepRunsDecodedInstruction : Prop :=
  ∀ (s : State) (i : Instr) (rest : List Byte),
    s.run = .running → decode s.fetchBytes = .ok (i, rest) → step s = exec i s

/-- The same said of memory: where an instruction's bytes lie from pc upward without passing address 255, the step is exec
of that instruction. -/
def Obligations.StepRunsInstructionInMemory : Prop :=
  ∀ (s : State) (i : Instr),
    s.run = .running → s.pc.toNat + (encode i).length ≤ 256 →
    (∀ k < (encode i).length, (encode i)[k]? = some (s.memRead (s.pc + BitVec.ofNat 8 k))) →
    step s = exec i s

/-- The five checks of a step in their order, each read off the raw bytes at pc, with the record the first failing one
leaves; a step that passes them all does not fault (40_cycle_and_dispatch.md section 1; decisions D2, D8, D9, D11, D12,
D21; D1 and D13 for the record; D6 and D7 for the operand bytes used; D15 for HLT's advance). -/
def Obligations.StepChecksInOrder : Prop :=
  ∀ s : State, s.run = .running →
    let ir := s.memRead s.pc
    let a := s.memRead (s.pc + 1)
    let b := s.memRead (s.pc + 2)
    let used := if ir = 0x01 then 0 else if ir = 0x82 ∨ ir = 0xA2 then 2 else 1
    ∃ t, step s = .next t ∧
      if ir ∉ ([0x01, 0x47, 0x82, 0xA2, 0x45, 0x46, 0x50, 0x11, 0x54] : List Byte) then
        t = s.faultedWith (unknownOpcodeRecord ir s.pc)
      else if s.pc.toNat + used > 255 then t = s.faultedWith (addressErrorRecord .operandFetch ir s.pc)
      else if 1 ≤ used ∧ 7 < a.toNat then t = s.faultedWith (addressErrorRecord .registerIndex ir s.pc)
      else if ir = 0xA2 ∧ 7 < b.toNat then t = s.faultedWith (addressErrorRecord .registerIndex ir s.pc)
      else if ir.toNat / 16 % 2 = 0 ∧ s.pc.toNat + ir.toNat / 64 + 1 > 255 then
        t = s.faultedWith (addressErrorRecord .pcAdvance ir s.pc)
      else t.run ≠ .faulted ∧ t.fault = s.fault

/-- A step exists exactly when the engine is Running, and then has a next state; from Halted and from Faulted it stops by
name (log 5: that "there is no step" is rendered as a stop is the model's choice). -/
def Obligations.StepExistsExactlyWhenRunning : Prop :=
  ∀ s : State,
    (s.run = .running ↔ ∃ t, step s = .next t) ∧
    (s.run = .halted ↔ step s = .fault .noStepHalted) ∧
    (s.run = .faulted ↔ step s = .fault .noStepFaulted)

/-- Faults are precise (decisions D1, D12): a step that ends Faulted has changed only run and fault, and the record names
the instruction still at pc. -/
def Obligations.FaultsArePrecise : Prop :=
  ∀ s t : State, step s = .next t → t.run = .faulted →
    (∀ q, t.reg q = s.reg q) ∧ t.pc = s.pc ∧ t.out = s.out ∧ (∀ c, t.memRead c = s.memRead c) ∧
    ∃ f, t.fault = some f ∧ f.Shaped ∧ f.pc = s.pc ∧ f.opcode = s.memRead s.pc

/-- No step raises UnsupportedOperationError: the dispatcher only ever passes the ALU its MUL (decision D24). -/
def Obligations.UnsupportedOperationNeverRaised : Prop :=
  ∀ s t : State, step s = .next t → t.run = .faulted →
    ∃ f, t.fault = some f ∧ f.cause ≠ .unsupportedOperationError

/-- Halted is reached exactly by executing the byte 0x01 at an address other than 255 (70_reset_and_hazards.md section 5;
decisions D8, D15). -/
def Obligations.HaltedReachedOnlyByHlt : Prop :=
  ∀ s t : State, step s = .next t → (t.run = .halted ↔ s.memRead s.pc = 0x01 ∧ s.pc.toNat ≠ 255)

/-- The output changes only by a PRN that commits, which appends the register its operand names (10_state.md section 4). -/
def Obligations.OutputGrowsOnlyByPrn : Prop :=
  ∀ s t : State, step s = .next t →
    if s.memRead s.pc = 0x47 ∧ t.run ≠ .faulted then
      ∃ r : RegIdx, (s.memRead (s.pc + 1)).toNat = r.val ∧ t.out = s.out ++ [s.reg r]
    else t.out = s.out

/-- Where bit 4 of the opcode is 0, a committed step makes pc exactly pc + count + 1, with no wrap (40_cycle_and_dispatch.md
section 5; decisions D8, D15). -/
def Obligations.PcAdvancesByCount : Prop :=
  ∀ s t : State, step s = .next t → t.run ≠ .faulted → (s.memRead s.pc).toNat / 16 % 2 = 0 →
    t.pc.toNat = s.pc.toNat + (s.memRead s.pc).toNat / 64 + 1

/-- An instruction changes only the registers the spec's table lists as written by it (10_state.md section 2). -/
def Obligations.RegistersWrittenAsListed : Prop :=
  ∀ (i : Instr) (s t : State) (q : RegIdx), exec i s = .next t → t.reg q ≠ s.reg q →
    match i with
    | .hlt | .prn _ | .jmp _ => False
    | .ldi a _ | .mul a _ => a.toNat = q.val
    | .push _ | .call _ => q = 7
    | .pop a | .ret a => a.toNat = q.val ∨ q = 7

/-- A register an instruction does not name has no influence on it: changing it beforehand or afterwards is the same
(10_state.md section 2, the columns "reads" and "writes" together). Stack instructions name register 7. -/
def Obligations.UnnamedRegisterHasNoInfluence : Prop :=
  ∀ (i : Instr) (s t : State) (q : RegIdx) (v : Byte),
    (∀ o ∈ i.registerOperands, o.toNat ≠ q.val) →
    (q = 7 → i.usesStack = false) →
    exec i s = .next t → exec i (s.setReg q v) = .next (t.setReg q v)

/-- No instruction reads the output or the fault record (10_state.md section 4): other contents of either leave every other
component of the next state as it is. -/
def Obligations.NoInstructionReadsOutputOrFault : Prop :=
  ∀ (i : Instr) (s t : State) (o : List Byte) (f : Option FaultRecord), exec i s = .next t →
    ∃ u, exec i { s with out := o, fault := f } = .next u ∧
      (∀ q, u.reg q = t.reg q) ∧ u.pc = t.pc ∧ u.run = t.run ∧ (∀ c, u.memRead c = t.memRead c)

/-- Memory changes at most in one cell, and only by the four stack instructions (10_state.md section 5, 20_memory.md
section 1; decisions D4, D5, D16): PUSH and CALL at the decremented stack pointer, POP and RET at the stack pointer as it
stands after the load. -/
def Obligations.MemoryChangesOnlyOnTheStack : Prop :=
  ∀ (i : Instr) (s t : State) (c : Byte), exec i s = .next t → t.memRead c ≠ s.memRead c →
    match i with
    | .hlt | .prn _ | .ldi _ _ | .mul _ _ | .jmp _ => False
    | .push _ | .call _ => c = s.reg 7 - 1
    | .pop a | .ret a => c = if a = 7 then s.memRead (s.reg 7) else s.reg 7

/-! ## Registers, memory and the state as a whole -/

/-- R11: eight cells; after any sequence of writes a register reads as what was last written to it, or as before; an operand
byte names the register whose index is its value. -/
def Obligations.RegistersReadAsLastWritten : Prop :=
  (∀ (s : State) (writes : List (RegIdx × Byte)) (q : RegIdx),
    (writes.foldl (fun u w => u.setReg w.1 w.2) s).reg q =
      ((writes.reverse.find? fun w => w.1 == q).map Prod.snd).getD (s.reg q)) ∧
    ∀ (a : Byte) (r : RegIdx), regOperand a = .ok r ↔ a.toNat = r.val

/-- R30: after any sequence of writes a cell reads as what was last written to it, or as before; no write touches anything
but memory; the launch value is MEM_INIT's; fetch reads the same memory; PRN leaves memory alone. -/
def Obligations.MemoryIsPlainStorage : Prop :=
  (∀ (s : State) (writes : List (Byte × Byte)) (c : Byte),
    let t := writes.foldl (fun u w => u.memWrite w.1 w.2) s
    t.memRead c = ((writes.reverse.find? fun w => w.1 == c).map Prod.snd).getD (s.memRead c) ∧
      (∀ q, t.reg q = s.reg q) ∧ t.pc = s.pc ∧ t.run = s.run ∧ t.fault = s.fault ∧ t.out = s.out) ∧
    (∀ (regInit : Fin 7 → Byte) (memInit : Nat → Byte) (c : Byte),
      (State.launch regInit memInit).memRead c = memInit c.toNat) ∧
    (∀ s : State, s.fetchOpcode = s.memRead s.pc) ∧
    ∀ (a : Byte) (s t : State) (c : Byte), exec (.prn a) s = .next t → t.memRead c = s.memRead c

/-- The state is its six components and nothing else (10_state.md section 1; the record and Faulted are decision D1): states
with memory in canonical form that agree on all six are the same data. -/
def Obligations.StateIsItsSixComponents : Prop :=
  ∀ s t : State, s.mem.wf → t.mem.wf → (∀ q, s.reg q = t.reg q) → s.pc = t.pc → s.run = t.run → s.fault = t.fault →
    s.out = t.out → (∀ c, s.memRead c = t.memRead c) → s = t

/-! ## Invariants, launch and host -/

/-- From every state that meets the invariant, a step gives a state that meets it. -/
def Obligations.StepKeepsInvariant : Prop :=
  ∀ s t : State, s.Inv → step s = .next t → t.Inv

/-- The state after reset meets the invariant. -/
def Obligations.ResetMeetsInvariant : Prop := State.reset.Inv

/-- Every launch state meets the invariant, whatever REG_INIT and MEM_INIT are (decision D14). -/
def Obligations.LaunchMeetsInvariant : Prop :=
  ∀ (regInit : Fin 7 → Byte) (memInit : Nat → Byte), (State.launch regInit memInit).Inv

/-- Every state that a run from any launch (decision D14) reaches meets the invariant, whatever the program; what it says of
the fault record rests on decisions D1, D12 and D13. -/
def Obligations.ReachedStatesMeetInvariant : Prop :=
  ∀ (regInit : Fin 7 → Byte) (memInit : Nat → Byte) (n : Nat) (t : State),
    runSteps n (State.launch regInit memInit) = .next t → t.Inv

/-- Along a run the output only grows (10_state.md section 8). -/
def Obligations.OutputOnlyGrowsAlongARun : Prop :=
  ∀ (n : Nat) (s t : State), runSteps n s = .next t → s.out <+: t.out

/-- What reset leaves, as far as the spec gives values (decisions D1 and D14 for fault and out); and the state after reset is
one of the launch states, so that what holds of every launch holds of it. -/
def Obligations.ResetIsALaunch : Prop :=
  State.reset.reg 7 = 0xF3 ∧ State.reset.pc = 0 ∧ State.reset.run = .running ∧ State.reset.fault = none ∧
    State.reset.out = [] ∧ ∃ regInit memInit, State.reset = State.launch regInit memInit

/-- The launch state for any REG_INIT and MEM_INIT (decision D14): the spec's values, registers 0 to 6 and all 256 cells as
given, and the first opcode fetched from address 0. -/
def Obligations.LaunchState : Prop :=
  ∀ (regInit : Fin 7 → Byte) (memInit : Nat → Byte),
    let s := State.launch regInit memInit
    s.reg 7 = 0xF3 ∧ s.pc = 0 ∧ s.run = .running ∧ s.fault = none ∧ s.out = [] ∧
      (∀ k : Fin 7, s.reg k.castSucc = regInit k) ∧ (∀ c : Byte, s.memRead c = memInit c.toNat) ∧
      s.fetchOpcode = memInit 0

/-- A program image is placed from address 0 upward and the other cells are as given; an image longer than memory is no
launch (70_reset_and_hazards.md section 1; 93_implementation_defined.md U16). -/
def Obligations.LaunchImageFromZero : Prop :=
  ∀ (regInit : Fin 7 → Byte) (image : List Byte) (rest : Nat → Byte),
    (256 < image.length → State.launchImage regInit image rest = none) ∧
    (image.length ≤ 256 → ∃ s, State.launchImage regInit image rest = some s ∧ s.pc = 0 ∧
      (∀ c v, image[BitVec.toNat c]? = some v → s.memRead c = v) ∧
      (∀ c : Byte, image.length ≤ c.toNat → s.memRead c = rest c.toNat))

/-- The status outputs (70_reset_and_hazards.md section 8; decisions D1, D13, D17): halted is true exactly when run is Halted;
the fault status shows the record's code, detail number, pc and opcode, or code 0 and nothing else when there is no record.
In a state that meets the invariant the code is 0 exactly when the engine is not Faulted, and once it is Faulted the pc and
opcode shown are those of the instruction at pc (decision D12). -/
def Obligations.StatusOutputs : Prop :=
  ∀ s : State, (s.haltedFlag = true ↔ s.run = .halted) ∧
    (s.fault = none → s.faultCode = 0 ∧ s.faultDetail = none ∧ s.faultPc = none ∧ s.faultOpcode = none) ∧
    (∀ f : FaultRecord, s.fault = some f →
      s.faultCode = f.code ∧ s.faultPc = some f.pc ∧ s.faultOpcode = some f.opcode ∧
      s.faultDetail = (match f.detail with
        | none => none
        | some .operandFetch => some 1
        | some .registerIndex => some 2
        | some .pcAdvance => some 3)) ∧
    (s.Inv → (s.faultCode = 0 ↔ s.run ≠ .faulted) ∧
      (s.run = .faulted → s.faultPc = some s.pc ∧ s.faultOpcode = some (s.memRead s.pc) ∧
        (s.faultDetail.isSome ↔ s.faultCode = 1)))

/-! ## The instructions -/

/-- LDI (41_load_alu_output.md section 1, R90): its bytes, its faults in their order (decisions D8, D9, D11, D12, D21), and
its effect with its frame. -/
def Obligations.LdiLoadsImmediate : Prop :=
  ∀ (a v : Byte) (s : State),
    encode (.ldi a v) = [0x82, a, v] ∧
    (254 ≤ s.pc.toNat → exec (.ldi a v) s = .next (s.faultedWith (addressErrorRecord .operandFetch 0x82 s.pc))) ∧
    (s.pc.toNat ≤ 253 → 7 < a.toNat →
      exec (.ldi a v) s = .next (s.faultedWith (addressErrorRecord .registerIndex 0x82 s.pc))) ∧
    (s.pc.toNat = 253 → a.toNat ≤ 7 →
      exec (.ldi a v) s = .next (s.faultedWith (addressErrorRecord .pcAdvance 0x82 s.pc))) ∧
    (∀ r : RegIdx, a.toNat = r.val → s.pc.toNat ≤ 252 →
      ∃ t, exec (.ldi a v) s = .next t ∧ t.pc.toNat = s.pc.toNat + 3 ∧
        (∀ q, t.reg q = if q = r then v else s.reg q) ∧ (∀ c, t.memRead c = s.memRead c) ∧
        t.out = s.out ∧ t.run = s.run ∧ t.fault = s.fault)

/-- MUL (41_load_alu_output.md section 2, R91): its bytes, its faults in their order (decisions D8, D9, D11, D12, D21;
UnsupportedOperationError is none of them), and its effect with its frame. -/
def Obligations.MulMultipliesModulo256 : Prop :=
  ∀ (a b : Byte) (s : State),
    encode (.mul a b) = [0xA2, a, b] ∧
    (254 ≤ s.pc.toNat → exec (.mul a b) s = .next (s.faultedWith (addressErrorRecord .operandFetch 0xA2 s.pc))) ∧
    (s.pc.toNat ≤ 253 → 7 < a.toNat ∨ 7 < b.toNat →
      exec (.mul a b) s = .next (s.faultedWith (addressErrorRecord .registerIndex 0xA2 s.pc))) ∧
    (s.pc.toNat = 253 → a.toNat ≤ 7 → b.toNat ≤ 7 →
      exec (.mul a b) s = .next (s.faultedWith (addressErrorRecord .pcAdvance 0xA2 s.pc))) ∧
    (∀ ra rb : RegIdx, a.toNat = ra.val → b.toNat = rb.val → s.pc.toNat ≤ 252 →
      ∃ t, exec (.mul a b) s = .next t ∧ t.pc.toNat = s.pc.toNat + 3 ∧
        (t.reg ra).toNat = (s.reg ra).toNat * (s.reg rb).toNat % 256 ∧ (∀ q, q ≠ ra → t.reg q = s.reg q) ∧
        (∀ c, t.memRead c = s.memRead c) ∧ t.out = s.out ∧ t.run = s.run ∧ t.fault = s.fault)

/-- PRN (41_load_alu_output.md section 3, R92): its bytes, its faults in their order (decisions D8, D9, D11, D12, D21), and
its effect with its frame. -/
def Obligations.PrnAppendsRegister : Prop :=
  ∀ (a : Byte) (s : State),
    encode (.prn a) = [0x47, a] ∧
    (s.pc.toNat = 255 → exec (.prn a) s = .next (s.faultedWith (addressErrorRecord .operandFetch 0x47 s.pc))) ∧
    (s.pc.toNat ≤ 254 → 7 < a.toNat →
      exec (.prn a) s = .next (s.faultedWith (addressErrorRecord .registerIndex 0x47 s.pc))) ∧
    (s.pc.toNat = 254 → a.toNat ≤ 7 →
      exec (.prn a) s = .next (s.faultedWith (addressErrorRecord .pcAdvance 0x47 s.pc))) ∧
    (∀ r : RegIdx, a.toNat = r.val → s.pc.toNat ≤ 253 →
      ∃ t, exec (.prn a) s = .next t ∧ t.pc.toNat = s.pc.toNat + 2 ∧ t.out = s.out ++ [s.reg r] ∧
        (∀ q, t.reg q = s.reg q) ∧ (∀ c, t.memRead c = s.memRead c) ∧ t.run = s.run ∧ t.fault = s.fault)

/-- PUSH (42_stack.md section 1; decisions D8, D9, D11, D12, D21 for its faults, D10 and D16 for the wrap and for operand
7): its bytes, its faults in their order, and its effect: the stack pointer moves down by one modulo 256 and the cell it then addresses takes the register as it stands after that. -/
def Obligations.PushStoresBelowStackPointer : Prop :=
  ∀ (a : Byte) (s : State),
    encode (.push a) = [0x45, a] ∧
    (s.pc.toNat = 255 → exec (.push a) s = .next (s.faultedWith (addressErrorRecord .operandFetch 0x45 s.pc))) ∧
    (s.pc.toNat ≤ 254 → 7 < a.toNat →
      exec (.push a) s = .next (s.faultedWith (addressErrorRecord .registerIndex 0x45 s.pc))) ∧
    (s.pc.toNat = 254 → a.toNat ≤ 7 →
      exec (.push a) s = .next (s.faultedWith (addressErrorRecord .pcAdvance 0x45 s.pc))) ∧
    (∀ r : RegIdx, a.toNat = r.val → s.pc.toNat ≤ 253 →
      ∃ t, exec (.push a) s = .next t ∧ t.pc.toNat = s.pc.toNat + 2 ∧
        (t.reg 7).toNat = ((s.reg 7).toNat + 255) % 256 ∧ (∀ q, q ≠ 7 → t.reg q = s.reg q) ∧
        t.memRead (t.reg 7) = t.reg r ∧ (∀ c, c ≠ t.reg 7 → t.memRead c = s.memRead c) ∧
        t.out = s.out ∧ t.run = s.run ∧ t.fault = s.fault)

/-- POP (42_stack.md section 2; decisions D8, D9, D11, D12, D21 for its faults, D10 and D16 for the wrap and for operand 7):
its bytes, its faults in their order, and its effect. For an operand other than 7 the register takes the cell at the stack pointer, that cell is cleared, and the stack pointer moves up
by one modulo 256; for operand 7 the loaded value is the stack pointer that addresses the cell cleared and moves up. -/
def Obligations.PopLoadsAndClears : Prop :=
  ∀ (a : Byte) (s : State),
    encode (.pop a) = [0x46, a] ∧
    (s.pc.toNat = 255 → exec (.pop a) s = .next (s.faultedWith (addressErrorRecord .operandFetch 0x46 s.pc))) ∧
    (s.pc.toNat ≤ 254 → 7 < a.toNat →
      exec (.pop a) s = .next (s.faultedWith (addressErrorRecord .registerIndex 0x46 s.pc))) ∧
    (s.pc.toNat = 254 → a.toNat ≤ 7 →
      exec (.pop a) s = .next (s.faultedWith (addressErrorRecord .pcAdvance 0x46 s.pc))) ∧
    (∀ r : RegIdx, a.toNat = r.val → s.pc.toNat ≤ 253 →
      let cleared := if r = 7 then s.memRead (s.reg 7) else s.reg 7
      ∃ t, exec (.pop a) s = .next t ∧ t.pc.toNat = s.pc.toNat + 2 ∧
        (r ≠ 7 → t.reg r = s.memRead (s.reg 7)) ∧ (t.reg 7).toNat = (cleared.toNat + 1) % 256 ∧
        (∀ q, q ≠ r → q ≠ 7 → t.reg q = s.reg q) ∧
        t.memRead cleared = 0 ∧ (∀ c, c ≠ cleared → t.memRead c = s.memRead c) ∧
        t.out = s.out ∧ t.run = s.run ∧ t.fault = s.fault)

/-- CALL (43_control.md section 1; decisions D3, D4, D10, D16, and D9, D11, D12, D21 for its faults): its bytes, its faults in
their order, and its effect: the push of the register as it
stands after the decrement, and a jump to the byte pushed. No return address is saved. -/
def Obligations.CallPushesTargetAndJumps : Prop :=
  ∀ (a : Byte) (s : State),
    encode (.call a) = [0x50, a] ∧
    (s.pc.toNat = 255 → exec (.call a) s = .next (s.faultedWith (addressErrorRecord .operandFetch 0x50 s.pc))) ∧
    (s.pc.toNat ≤ 254 → 7 < a.toNat →
      exec (.call a) s = .next (s.faultedWith (addressErrorRecord .registerIndex 0x50 s.pc))) ∧
    (∀ r : RegIdx, a.toNat = r.val → s.pc.toNat ≤ 254 →
      ∃ t, exec (.call a) s = .next t ∧ t.pc = t.reg r ∧
        (t.reg 7).toNat = ((s.reg 7).toNat + 255) % 256 ∧ (∀ q, q ≠ 7 → t.reg q = s.reg q) ∧
        t.memRead (t.reg 7) = t.reg r ∧ (∀ c, c ≠ t.reg 7 → t.memRead c = s.memRead c) ∧
        t.out = s.out ∧ t.run = s.run ∧ t.fault = s.fault)

/-- RET (43_control.md section 2; decisions D3, D5, D6, D10, D16, and D9, D11, D12, D21 for its faults): its bytes (the
operand byte is decision D6), its faults in their order, and its effect: the pop into the operand
register, then a jump to that register as it stands at the end. -/
def Obligations.RetPopsAndJumps : Prop :=
  ∀ (a : Byte) (s : State),
    encode (.ret a) = [0x11, a] ∧
    (s.pc.toNat = 255 → exec (.ret a) s = .next (s.faultedWith (addressErrorRecord .operandFetch 0x11 s.pc))) ∧
    (s.pc.toNat ≤ 254 → 7 < a.toNat →
      exec (.ret a) s = .next (s.faultedWith (addressErrorRecord .registerIndex 0x11 s.pc))) ∧
    (∀ r : RegIdx, a.toNat = r.val → s.pc.toNat ≤ 254 →
      let cleared := if r = 7 then s.memRead (s.reg 7) else s.reg 7
      ∃ t, exec (.ret a) s = .next t ∧ t.pc = t.reg r ∧
        (r ≠ 7 → t.reg r = s.memRead (s.reg 7)) ∧ (t.reg 7).toNat = (cleared.toNat + 1) % 256 ∧
        (∀ q, q ≠ r → q ≠ 7 → t.reg q = s.reg q) ∧
        t.memRead cleared = 0 ∧ (∀ c, c ≠ cleared → t.memRead c = s.memRead c) ∧
        t.out = s.out ∧ t.run = s.run ∧ t.fault = s.fault)

/-- JMP (43_control.md section 3, R122): its bytes, its faults in their order (decisions D9, D11, D12, D21), and its effect:
pc becomes the register and nothing else changes. -/
def Obligations.JmpSetsPcToRegister : Prop :=
  ∀ (a : Byte) (s : State),
    encode (.jmp a) = [0x54, a] ∧
    (s.pc.toNat = 255 → exec (.jmp a) s = .next (s.faultedWith (addressErrorRecord .operandFetch 0x54 s.pc))) ∧
    (s.pc.toNat ≤ 254 → 7 < a.toNat →
      exec (.jmp a) s = .next (s.faultedWith (addressErrorRecord .registerIndex 0x54 s.pc))) ∧
    (∀ r : RegIdx, a.toNat = r.val → s.pc.toNat ≤ 254 →
      ∃ t, exec (.jmp a) s = .next t ∧ t.pc = s.reg r ∧ (∀ q, t.reg q = s.reg q) ∧
        (∀ c, t.memRead c = s.memRead c) ∧ t.out = s.out ∧ t.run = s.run ∧ t.fault = s.fault)

/-- HLT (43_control.md section 4; decisions D8, D12 and D15): its one byte, and Halted with pc one further, everything else unchanged; at address
255 it faults and does not halt. -/
def Obligations.HltHaltsAndAdvances : Prop :=
  ∀ s : State,
    encode .hlt = [0x01] ∧
    (s.pc.toNat = 255 → exec .hlt s = .next (s.faultedWith (addressErrorRecord .pcAdvance 0x01 s.pc))) ∧
    (s.pc.toNat ≤ 254 →
      ∃ t, exec .hlt s = .next t ∧ t.run = .halted ∧ t.pc.toNat = s.pc.toNat + 1 ∧ (∀ q, t.reg q = s.reg q) ∧
        (∀ c, t.memRead c = s.memRead c) ∧ t.out = s.out ∧ t.fault = s.fault)

/-! ## The ALU -/

/-- The ALU (41_load_alu_output.md section 4; decisions D20, D24; log 9 for the select's type): ADD and MUL write the
destination modulo 256 and nothing else, and any other select is an UnsupportedOperationError. -/
def Obligations.AluAddsAndMultipliesModulo256 : Prop :=
  ∀ (d src : RegIdx) (s : State),
    (∃ t, aluApply .add d src s = .ok t ∧ (t.reg d).toNat = ((s.reg d).toNat + (s.reg src).toNat) % 256 ∧
      (∀ q, q ≠ d → t.reg q = s.reg q) ∧ t.pc = s.pc ∧ t.run = s.run ∧ t.fault = s.fault ∧ t.out = s.out ∧
      (∀ c, t.memRead c = s.memRead c)) ∧
    (∃ t, aluApply .mul d src s = .ok t ∧ (t.reg d).toNat = (s.reg d).toNat * (s.reg src).toNat % 256 ∧
      (∀ q, q ≠ d → t.reg q = s.reg q) ∧ t.pc = s.pc ∧ t.run = s.run ∧ t.fault = s.fault ∧ t.out = s.out ∧
      (∀ c, t.memRead c = s.memRead c)) ∧
    (∀ name, aluApply (.other name) d src s = .error .unsupportedOperationError)

/-! ## Instructions in sequence -/

/-- PUSH Rn followed at once by POP Rn, for any n: every register is as before and memory is as before but for the cell below
the old stack pointer, now 0; provided that cell is none of the pair's four bytes (42_stack.md section 3; decision D16). -/
def Obligations.PushThenPopRestores : Prop :=
  ∀ (n : Byte) (s : State), n.toNat ≤ 7 → s.run = .running → s.pc.toNat ≤ 251 →
    s.memRead s.pc = 0x45 → s.memRead (s.pc + 1) = n → s.memRead (s.pc + 2) = 0x46 → s.memRead (s.pc + 3) = n →
    (∀ k : Nat, k < 4 → s.reg 7 - 1 ≠ s.pc + BitVec.ofNat 8 k) →
    ∃ t u, step s = .next t ∧ step t = .next u ∧ (∀ q, u.reg q = s.reg q) ∧ u.memRead (s.reg 7 - 1) = 0 ∧
      (∀ c, c ≠ s.reg 7 - 1 → u.memRead c = s.memRead c) ∧ u.pc.toNat = s.pc.toNat + 4 ∧
      u.out = s.out ∧ u.run = .running ∧ u.fault = s.fault

/-- PUSH Ra then POP Rb copies register a to register b, for a and b other than the stack pointer (42_stack.md section 3; log
11: the spec's sentence does not name that restriction). -/
def Obligations.PushThenPopCopies : Prop :=
  ∀ (a b : Byte) (ra rb : RegIdx) (s : State), a.toNat = ra.val → b.toNat = rb.val → ra ≠ 7 → rb ≠ 7 →
    s.pc.toNat ≤ 251 →
    ∃ t u, exec (.push a) s = .next t ∧ exec (.pop b) t = .next u ∧ u.reg rb = s.reg ra ∧
      (∀ q, q ≠ rb → u.reg q = s.reg q)

/-- A byte that a PUSH writes just after itself is the next opcode fetched: fetch reads the same memory with nothing in
between (20_memory.md section 9). -/
def Obligations.PushedByteIsNextOpcode : Prop :=
  ∀ (a : Byte) (r : RegIdx) (s : State), a.toNat = r.val → r ≠ 7 → s.pc.toNat ≤ 253 → s.reg 7 - 1 = s.pc + 2 →
    ∃ t, exec (.push a) s = .next t ∧ t.fetchOpcode = s.reg r

/-- A RET executed with the stack as CALL left it goes to the called routine's start, not to the caller (43_control.md
section 2; decisions D3 to D6). -/
def Obligations.RetAfterCallGoesToTarget : Prop :=
  ∀ (a b p : Byte) (ra rb : RegIdx) (s : State), a.toNat = ra.val → b.toNat = rb.val → rb ≠ 7 →
    s.pc.toNat ≤ 254 → p.toNat ≤ 254 →
    ∃ t u, exec (.call a) s = .next t ∧ exec (.ret b) (t.setPc p) = .next u ∧ u.pc = t.pc ∧ u.reg rb = t.pc ∧
      u.reg 7 = s.reg 7 ∧ u.memRead (t.reg 7) = 0

/-- A JMP to its own address never ends: every number of steps leaves the very same state, still Running
(70_reset_and_hazards.md section 6, 43_control.md section 3). -/
def Obligations.JumpToItselfNeverEnds : Prop :=
  ∀ (r : RegIdx) (s : State), s.run = .running → s.pc.toNat ≤ 254 → s.memRead s.pc = 0x54 →
    (s.memRead (s.pc + 1)).toNat = r.val → s.reg r = s.pc → ∀ n : Nat, runSteps n s = .next s
end

