-- ==== Sys2Proof/Laws/Decode.lean ====
section
/-! SUPPORT. The fields of the nine opcodes (40_cycle_and_dispatch.md R72, R74), and what the two operand readers accept. -/

namespace Sys2Proof

@[simp] theorem nops_opHLT : nops opHLT = 0 := rfl
@[simp] theorem count_opHLT : count opHLT = 0 := rfl
@[simp] theorem setsPC_opHLT : setsPC opHLT = false := rfl
@[simp] theorem nops_opPRN : nops opPRN = 1 := rfl
@[simp] theorem count_opPRN : count opPRN = 1 := rfl
@[simp] theorem setsPC_opPRN : setsPC opPRN = false := rfl
@[simp] theorem nops_opLDI : nops opLDI = 2 := rfl
@[simp] theorem count_opLDI : count opLDI = 2 := rfl
@[simp] theorem setsPC_opLDI : setsPC opLDI = false := rfl
@[simp] theorem nops_opMUL : nops opMUL = 2 := rfl
@[simp] theorem count_opMUL : count opMUL = 2 := rfl
@[simp] theorem setsPC_opMUL : setsPC opMUL = false := rfl
@[simp] theorem nops_opPUSH : nops opPUSH = 1 := rfl
@[simp] theorem count_opPUSH : count opPUSH = 1 := rfl
@[simp] theorem setsPC_opPUSH : setsPC opPUSH = false := rfl
@[simp] theorem nops_opPOP : nops opPOP = 1 := rfl
@[simp] theorem count_opPOP : count opPOP = 1 := rfl
@[simp] theorem setsPC_opPOP : setsPC opPOP = false := rfl
@[simp] theorem nops_opCALL : nops opCALL = 1 := rfl
@[simp] theorem count_opCALL : count opCALL = 1 := rfl
@[simp] theorem setsPC_opCALL : setsPC opCALL = true := rfl
@[simp] theorem nops_opRET : nops opRET = 1 := rfl
@[simp] theorem count_opRET : count opRET = 0 := rfl
@[simp] theorem setsPC_opRET : setsPC opRET = true := rfl
@[simp] theorem nops_opJMP : nops opJMP = 1 := rfl
@[simp] theorem count_opJMP : count opJMP = 1 := rfl
@[simp] theorem setsPC_opJMP : setsPC opJMP = true := rfl

theorem decodeOne_eq_ok {ir : Byte} {mk : Byte → Instr} {bs : List Byte} {i : Instr} {rest : List Byte} :
    decodeOne ir mk bs = .ok (i, rest) ↔ ∃ a, bs = a :: rest ∧ i = mk a := by
  rcases bs with _ | ⟨a, r⟩ <;> simp [decodeOne, eq_comm, and_comm]

theorem decodeTwo_eq_ok {ir : Byte} {mk : Byte → Byte → Instr} {bs : List Byte} {i : Instr} {rest : List Byte} :
    decodeTwo ir mk bs = .ok (i, rest) ↔ ∃ a b, bs = a :: b :: rest ∧ i = mk a b := by
  rcases bs with _ | ⟨a, _ | ⟨b, r⟩⟩ <;> simp [decodeTwo, eq_comm, and_comm]

end Sys2Proof
end

