-- ==== Sys2Proof/Laws/State.lean ====
section
/-! SUPPORT. One lemma per field per update of the state, and what reading a register or a memory cell gives after each. -/

namespace Sys2Proof.Machine

variable (s : State)

@[simp] theorem State.setReg_regs (r : RegIdx) (v : Byte) : (s.setReg r v).regs = s.regs.set r.val v := rfl
@[simp] theorem State.setReg_pc (r : RegIdx) (v : Byte) : (s.setReg r v).pc = s.pc := rfl
@[simp] theorem State.setReg_run (r : RegIdx) (v : Byte) : (s.setReg r v).run = s.run := rfl
@[simp] theorem State.setReg_fault (r : RegIdx) (v : Byte) : (s.setReg r v).fault = s.fault := rfl
@[simp] theorem State.setReg_out (r : RegIdx) (v : Byte) : (s.setReg r v).out = s.out := rfl
@[simp] theorem State.setReg_mem (r : RegIdx) (v : Byte) : (s.setReg r v).mem = s.mem := rfl
@[simp] theorem State.memRead_setReg (r : RegIdx) (v : Byte) (c : Byte) : (s.setReg r v).memRead c = s.memRead c := rfl

@[simp] theorem State.setPc_regs (v : Byte) : (s.setPc v).regs = s.regs := rfl
@[simp] theorem State.setPc_pc (v : Byte) : (s.setPc v).pc = v := rfl
@[simp] theorem State.setPc_run (v : Byte) : (s.setPc v).run = s.run := rfl
@[simp] theorem State.setPc_fault (v : Byte) : (s.setPc v).fault = s.fault := rfl
@[simp] theorem State.setPc_out (v : Byte) : (s.setPc v).out = s.out := rfl
@[simp] theorem State.setPc_mem (v : Byte) : (s.setPc v).mem = s.mem := rfl
@[simp] theorem State.reg_setPc (v : Byte) (q : RegIdx) : (s.setPc v).reg q = s.reg q := rfl
@[simp] theorem State.sp_setPc (v : Byte) : (s.setPc v).sp = s.sp := rfl
@[simp] theorem State.memRead_setPc (v : Byte) (c : Byte) : (s.setPc v).memRead c = s.memRead c := rfl

@[simp] theorem State.emit_regs (v : Byte) : (s.emit v).regs = s.regs := rfl
@[simp] theorem State.emit_pc (v : Byte) : (s.emit v).pc = s.pc := rfl
@[simp] theorem State.emit_run (v : Byte) : (s.emit v).run = s.run := rfl
@[simp] theorem State.emit_fault (v : Byte) : (s.emit v).fault = s.fault := rfl
@[simp] theorem State.emit_out (v : Byte) : (s.emit v).out = s.out ++ [v] := rfl
@[simp] theorem State.emit_mem (v : Byte) : (s.emit v).mem = s.mem := rfl
@[simp] theorem State.reg_emit (v : Byte) (q : RegIdx) : (s.emit v).reg q = s.reg q := rfl
@[simp] theorem State.sp_emit (v : Byte) : (s.emit v).sp = s.sp := rfl
@[simp] theorem State.memRead_emit (v : Byte) (c : Byte) : (s.emit v).memRead c = s.memRead c := rfl

@[simp] theorem State.halt_regs : (s.halt).regs = s.regs := rfl
@[simp] theorem State.halt_pc : (s.halt).pc = s.pc := rfl
@[simp] theorem State.halt_run : (s.halt).run = .halted := rfl
@[simp] theorem State.halt_fault : (s.halt).fault = s.fault := rfl
@[simp] theorem State.halt_out : (s.halt).out = s.out := rfl
@[simp] theorem State.halt_mem : (s.halt).mem = s.mem := rfl
@[simp] theorem State.reg_halt (q : RegIdx) : (s.halt).reg q = s.reg q := rfl
@[simp] theorem State.sp_halt : (s.halt).sp = s.sp := rfl
@[simp] theorem State.memRead_halt (c : Byte) : (s.halt).memRead c = s.memRead c := rfl

@[simp] theorem State.memWrite_regs (a v : Byte) : (s.memWrite a v).regs = s.regs := rfl
@[simp] theorem State.memWrite_pc (a v : Byte) : (s.memWrite a v).pc = s.pc := rfl
@[simp] theorem State.memWrite_run (a v : Byte) : (s.memWrite a v).run = s.run := rfl
@[simp] theorem State.memWrite_fault (a v : Byte) : (s.memWrite a v).fault = s.fault := rfl
@[simp] theorem State.memWrite_out (a v : Byte) : (s.memWrite a v).out = s.out := rfl
@[simp] theorem State.memWrite_mem (a v : Byte) : (s.memWrite a v).mem = s.mem.write a.toNat v := rfl
@[simp] theorem State.reg_memWrite (a v : Byte) (q : RegIdx) : (s.memWrite a v).reg q = s.reg q := rfl
@[simp] theorem State.sp_memWrite (a v : Byte) : (s.memWrite a v).sp = s.sp := rfl

@[simp] theorem State.takeFault_regs (r : Reason) (ir : Byte) : (s.takeFault r ir).regs = s.regs := rfl
@[simp] theorem State.takeFault_pc (r : Reason) (ir : Byte) : (s.takeFault r ir).pc = s.pc := rfl
@[simp] theorem State.takeFault_run (r : Reason) (ir : Byte) : (s.takeFault r ir).run = .faulted := rfl
@[simp] theorem State.takeFault_fault (r : Reason) (ir : Byte) : (s.takeFault r ir).fault = some ⟨r.cause, r.cause.code, s.pc, ir, r.detail⟩ := rfl
@[simp] theorem State.takeFault_out (r : Reason) (ir : Byte) : (s.takeFault r ir).out = s.out := rfl
@[simp] theorem State.takeFault_mem (r : Reason) (ir : Byte) : (s.takeFault r ir).mem = s.mem := rfl
@[simp] theorem State.reg_takeFault (r : Reason) (ir : Byte) (q : RegIdx) : (s.takeFault r ir).reg q = s.reg q := rfl
@[simp] theorem State.sp_takeFault (r : Reason) (ir : Byte) : (s.takeFault r ir).sp = s.sp := rfl
@[simp] theorem State.memRead_takeFault (r : Reason) (ir : Byte) (c : Byte) : (s.takeFault r ir).memRead c = s.memRead c := rfl

@[simp] theorem State.faultedWith_regs (f : FaultRecord) : (s.faultedWith f).regs = s.regs := rfl
@[simp] theorem State.faultedWith_pc (f : FaultRecord) : (s.faultedWith f).pc = s.pc := rfl
@[simp] theorem State.faultedWith_run (f : FaultRecord) : (s.faultedWith f).run = .faulted := rfl
@[simp] theorem State.faultedWith_fault (f : FaultRecord) : (s.faultedWith f).fault = some f := rfl
@[simp] theorem State.faultedWith_out (f : FaultRecord) : (s.faultedWith f).out = s.out := rfl
@[simp] theorem State.faultedWith_mem (f : FaultRecord) : (s.faultedWith f).mem = s.mem := rfl
@[simp] theorem State.reg_faultedWith (f : FaultRecord) (q : RegIdx) : (s.faultedWith f).reg q = s.reg q := rfl
@[simp] theorem State.sp_faultedWith (f : FaultRecord) : (s.faultedWith f).sp = s.sp := rfl
@[simp] theorem State.memRead_faultedWith (f : FaultRecord) (c : Byte) : (s.faultedWith f).memRead c = s.memRead c := rfl

/-- A register reads as what was last written to it, and no write touches another (10_state.md R11). -/
@[simp] theorem State.reg_setReg (r q : RegIdx) (v : Byte) :
    (s.setReg r v).reg q = if q = r then v else s.reg q := by
  simp only [State.reg, State.setReg, Vector.getElem_set, Fin.ext_iff]
  by_cases h : r.val = q.val
  · simp [h]
  · simp [h, Ne.symm h]

theorem State.sp_eq : s.sp = s.reg 7 := rfl

@[simp] theorem State.sp_setReg_sp (v : Byte) : (s.setReg Config.spIndex v).sp = v := by
  simp [State.sp]

/-! ## The status outputs -/

@[simp] theorem State.haltedFlag_iff : s.haltedFlag = true ↔ s.run = .halted := by simp [State.haltedFlag]

variable {s}

theorem State.faultCode_of_none (h : s.fault = none) : s.faultCode = 0 := by simp [State.faultCode, h]

theorem State.faultCode_of_some {f : FaultRecord} (h : s.fault = some f) : s.faultCode = f.code := by
  simp [State.faultCode, h]

theorem State.faultDetail_eq (f : Option FaultRecord) (h : s.fault = f) :
    s.faultDetail = f.bind fun r => r.detail.map Detail.number := by simp [State.faultDetail, h]

theorem State.faultPc_eq (f : Option FaultRecord) (h : s.fault = f) : s.faultPc = f.map FaultRecord.pc := by
  simp [State.faultPc, h]

theorem State.faultOpcode_eq (f : Option FaultRecord) (h : s.fault = f) :
    s.faultOpcode = f.map FaultRecord.opcode := by simp [State.faultOpcode, h]

/-- Two register files that read alike are equal. -/
theorem regs_ext {s t : State} (h : ∀ q, t.reg q = s.reg q) : t.regs = s.regs := by
  apply Vector.ext
  intro i hi
  exact h ⟨i, hi⟩

end Sys2Proof.Machine
end

