-- ==== Sys2Proof/Laws/Memory.lean ====
section
/-! SUPPORT. Memory: read after write, the canonical form kept by every operation, equal memories are equal data. -/

namespace Sys2Proof.Machine

theorem Memory.read_erase (m : Memory) (a c : Nat) :
    (m.erase a).read c = if c = a then Memory.unlisted else m.read c := by
  induction m with
  | nil => simp [Memory.erase, Memory.read]
  | cons e rest ih =>
    simp only [Memory.erase] at ih ⊢
    by_cases he : e.1 = a
    · simp only [List.filter_cons, he, ne_eq, not_true_eq_false, decide_false, Bool.false_eq_true, if_false, ih]
      by_cases hc : c = a
      · simp [hc]
      · simp [Memory.read, hc, he, Ne.symm hc]
    · simp only [List.filter_cons, ne_eq, he, not_false_eq_true, decide_true, if_true, Memory.read, ih]
      by_cases hc : c = a
      · simp [hc, he]
      · simp [hc]

theorem Memory.read_insert_ne (m : Memory) (v : Byte) {a c : Nat} (h : c ≠ a) :
    (Memory.insert a v m).read c = m.read c := by
  induction m with
  | nil => simp [Memory.insert, Memory.read, h.symm]
  | cons e rest ih =>
    by_cases he : a < e.1
    · simp [Memory.insert, he, Memory.read, h.symm]
    · simp [Memory.insert, he, Memory.read, ih]

theorem Memory.read_insert_self (m : Memory) (a : Nat) (v : Byte) (h : ∀ e ∈ m, e.1 ≠ a) :
    (Memory.insert a v m).read a = v := by
  induction m with
  | nil => simp [Memory.insert, Memory.read]
  | cons e rest ih =>
    by_cases he : a < e.1
    · simp [Memory.insert, he, Memory.read]
    · simp only [Memory.insert, he, if_false, Memory.read, h e (by simp)]
      exact ih fun x hx => h x (by simp [hx])

theorem Memory.ne_of_mem_erase {m : Memory} {a : Nat} {e : Host.Cell} (h : e ∈ m.erase a) : e.1 ≠ a := by
  simpa using (List.mem_filter.mp h).2

/-- A read returns the value last written to that cell, and a write leaves every other cell (20_memory.md R30). -/
theorem Memory.read_write (m : Memory) (a c : Nat) (v : Byte) :
    (m.write a v).read c = if c = a then v else m.read c := by
  by_cases hv : v = Memory.unlisted
  · simp [Memory.write, hv, Memory.read_erase]
  · simp only [Memory.write, hv, if_false]
    by_cases hc : c = a
    · subst hc
      simpa using Memory.read_insert_self _ _ _ fun e he => Memory.ne_of_mem_erase he
    · simp [hc, Memory.read_insert_ne _ _ hc, Memory.read_erase]

/-- Every 8-bit address is its own cell. -/
@[simp] theorem State.memRead_memWrite (s : State) (a c v : Byte) :
    (s.memWrite a v).memRead c = if c = a then v else s.memRead c := by
  simp [State.memRead, Memory.read_write, BitVec.toNat_inj]

/-! ## The canonical form -/

theorem Memory.wf_nil : Memory.wf [] := by simp [Memory.wf]

theorem Memory.wf_erase {m : Memory} (h : m.wf) (a : Nat) : (m.erase a).wf :=
  ⟨h.1.filter _, fun c hc => h.2 c (List.mem_filter.mp hc).1⟩

theorem Memory.mem_insert {m : Memory} {a : Nat} {v : Byte} {e : Host.Cell} (h : e ∈ Memory.insert a v m) :
    e = (a, v) ∨ e ∈ m := by
  induction m with
  | nil => simpa [Memory.insert] using h
  | cons x rest ih =>
    simp only [Memory.insert] at h
    split at h
    · simpa using h
    · rcases List.mem_cons.mp h with rfl | h
      · simp
      · rcases ih h with h | h <;> simp [h]

theorem Memory.wf_insert {m : Memory} (h : m.wf) {a : Nat} {v : Byte} (hn : ∀ e ∈ m, e.1 ≠ a)
    (ha : a < Config.memSize) (hv : v ≠ Memory.unlisted) : (Memory.insert a v m).wf := by
  refine ⟨?_, fun c hc => ?_⟩
  · induction m with
    | nil => simp [Memory.insert]
    | cons x rest ih =>
      have hx := List.pairwise_cons.mp h.1
      have hne := hn x (by simp)
      simp only [Memory.insert]
      split
      · rename_i hlt
        refine List.pairwise_cons.mpr ⟨fun e he => ?_, h.1⟩
        rcases List.mem_cons.mp he with rfl | he
        · exact hlt
        · exact Nat.lt_trans hlt (hx.1 e he)
      · rename_i hge
        refine List.pairwise_cons.mpr ⟨fun e he => ?_,
          ih ⟨hx.2, fun c hc => h.2 c (by simp [hc])⟩ fun e he => hn e (by simp [he])⟩
        rcases Memory.mem_insert he with rfl | he
        · simp only at hge ⊢
          omega
        · exact hx.1 e he
  · rcases Memory.mem_insert hc with rfl | hc
    · exact ⟨ha, hv⟩
    · exact h.2 c hc

/-- Every write keeps the canonical form. -/
theorem Memory.wf_write {m : Memory} (h : m.wf) {a : Nat} (ha : a < Config.memSize) (v : Byte) : (m.write a v).wf := by
  unfold Memory.write
  split
  · exact Memory.wf_erase h a
  · rename_i hv
    exact Memory.wf_insert (Memory.wf_erase h a) (fun _ he => Memory.ne_of_mem_erase he) ha hv

theorem State.memWrite_wf {s : State} (h : s.mem.wf) (a v : Byte) : (s.memWrite a v).mem.wf :=
  Memory.wf_write h a.isLt v

/-- Storing a program keeps the canonical form. -/
theorem Memory.wf_storeFrom {m : Memory} (h : m.wf) (a : Nat) (bs : List Byte) : (m.storeFrom a bs).wf := by
  induction bs generalizing m a with
  | nil => exact h
  | cons v rest ih =>
    unfold Memory.storeFrom
    split
    · rename_i ha
      exact ih (Memory.wf_write h ha v) _
    · exact h

/-- The memory made of given cells is in canonical form. -/
theorem Memory.wf_ofCells (f : Nat → Byte) : (Memory.ofCells f).wf := by
  refine ⟨(List.Pairwise.filter _ ?_), fun c hc => ?_⟩
  · exact List.pairwise_map.mpr (List.pairwise_lt_range (n := Config.memSize))
  · simp only [Memory.ofCells, List.mem_filter, List.mem_map, List.mem_range] at hc
    obtain ⟨⟨a, ha, rfl⟩, hv⟩ := hc
    exact ⟨ha, by simpa using hv⟩

theorem Memory.read_of_not_mem {m : Memory} {a : Nat} (h : ∀ e ∈ m, e.1 ≠ a) : m.read a = Memory.unlisted := by
  induction m with
  | nil => rfl
  | cons e rest ih => simp [Memory.read, h e (by simp), ih fun x hx => h x (by simp [hx])]

theorem Memory.read_of_mem {m : Memory} (h : m.Pairwise fun c d => c.1 < d.1) {e : Host.Cell} (he : e ∈ m) :
    m.read e.1 = e.2 := by
  induction m with
  | nil => simp at he
  | cons x rest ih =>
    have hx := List.pairwise_cons.mp h
    rcases List.mem_cons.mp he with rfl | he
    · simp [Memory.read]
    · have := hx.1 e he
      simp [Memory.read, Nat.ne_of_lt this, ih hx.2 he]

/-- Each of the 256 cells reads as the byte given for it. -/
theorem Memory.read_ofCells (f : Nat → Byte) {a : Nat} (ha : a < Config.memSize) : (Memory.ofCells f).read a = f a := by
  by_cases hv : f a = Memory.unlisted
  · rw [hv]
    refine Memory.read_of_not_mem fun e he hea => ?_
    simp only [Memory.ofCells, List.mem_filter, List.mem_map, List.mem_range] at he
    obtain ⟨⟨b, _, rfl⟩, hb⟩ := he
    simp only at hea
    subst hea
    simp [hv] at hb
  · refine Memory.read_of_mem (e := (a, f a)) (Memory.wf_ofCells f).1 ?_
    simp only [Memory.ofCells, List.mem_filter, List.mem_map, List.mem_range]
    exact ⟨⟨a, ha, rfl⟩, by simpa using hv⟩

theorem State.launch_mem (regInit : Fin 7 → Byte) (memInit : Nat → Byte) :
    (State.launch regInit memInit).mem = Memory.ofCells memInit := rfl

theorem Memory.mem_of_read_eq {m n : Memory} (hm : m.wf) (h : ∀ a, m.read a = n.read a) {e : Host.Cell} (he : e ∈ m) :
    e ∈ n := by
  have hr := Memory.read_of_mem hm.1 he
  rw [h] at hr
  have hne := (hm.2 e he).2
  clear h
  induction n with
  | nil => exact absurd hr.symm hne
  | cons x rest ih =>
    by_cases hx : x.1 = e.1
    · simp only [Memory.read, hx, if_true] at hr
      simp [Prod.ext hx hr]
    · simp only [Memory.read, hx, if_false] at hr
      simp [ih hr]

/-- Memories in canonical form that read alike are equal data. -/
theorem Memory.ext_of_wf {m n : Memory} (hm : m.wf) (hn : n.wf) (h : ∀ a, m.read a = n.read a) : m = n := by
  have hnd : ∀ {l : Memory}, l.wf → l.Nodup := fun hl => hl.1.imp fun hlt heq => by simp [heq] at hlt
  have hp : m.Perm n := (List.perm_ext_iff_of_nodup (hnd hm) (hnd hn)).mpr fun e =>
    ⟨Memory.mem_of_read_eq hm h, Memory.mem_of_read_eq hn fun a => (h a).symm⟩
  exact hp.eq_of_pairwise (fun a b _ _ hab hba => by omega) hm.1 hn.1

end Sys2Proof.Machine
end

