-- ==== Sys2Proof/Laws/Ops.lean ====
section
/-! SUPPORT. What the shared operations push, pop and the ALU can do, once for all instructions that use them. -/

namespace Sys2Proof.Machine

variable (s : State) (a : RegIdx)

/-! ## push (42_stack.md R110) -/

@[simp] theorem State.push_pc : (s.push a).pc = s.pc := rfl
@[simp] theorem State.push_run : (s.push a).run = s.run := rfl
@[simp] theorem State.push_fault : (s.push a).fault = s.fault := rfl
@[simp] theorem State.push_out : (s.push a).out = s.out := rfl

/-- A push moves the stack pointer and no other register. -/
theorem State.reg_push (q : RegIdx) : (s.push a).reg q = if q = 7 then s.reg 7 - 1 else s.reg q := by
  simp [State.push, State.sp, Config.spIndex]

/-- The byte pushed is the register as it stands after the decrement, and no other cell changes. -/
theorem State.memRead_push (c : Byte) : (s.push a).memRead c =
    if c = s.reg 7 - 1 then (if a = 7 then s.reg 7 - 1 else s.reg a) else s.memRead c := by
  simp [State.push, State.sp, Config.spIndex]

theorem State.sp_push : (s.push a).sp = s.reg 7 - 1 := by
  simp [State.sp_eq, State.reg_push]

theorem State.push_wf {s : State} (h : s.mem.wf) (a : RegIdx) : (s.push a).mem.wf :=
  State.memWrite_wf (s := s.setReg _ _) h _ _

/-! ## pop (42_stack.md R111) -/

@[simp] theorem State.pop_pc : (s.pop a).pc = s.pc := rfl
@[simp] theorem State.pop_run : (s.pop a).run = s.run := rfl
@[simp] theorem State.pop_fault : (s.pop a).fault = s.fault := rfl
@[simp] theorem State.pop_out : (s.pop a).out = s.out := rfl

/-- The cell a pop clears: the one the stack pointer addresses after the load (92_eei_decisions.md D16). -/
def State.popCleared : Byte := if a = 7 then s.memRead (s.reg 7) else s.reg 7

/-- A pop writes the register popped into, then the stack pointer. -/
theorem State.reg_pop (q : RegIdx) : (s.pop a).reg q =
    if q = 7 then s.popCleared a + 1 else if q = a then s.memRead (s.reg 7) else s.reg q := by
  by_cases h : a = 7
  · subst h
    by_cases hq : q = 7 <;> simp [State.pop, State.popCleared, State.sp, Config.spIndex, hq]
  · have h' : (7 : RegIdx) ≠ a := Ne.symm h
    by_cases hq : q = 7 <;> simp [State.pop, State.popCleared, State.sp, Config.spIndex, h, h', hq]

/-- A pop clears one cell and changes no other. -/
theorem State.memRead_pop (c : Byte) :
    (s.pop a).memRead c = if c = s.popCleared a then 0 else s.memRead c := by
  by_cases h : a = 7
  · subst h
    simp [State.pop, State.popCleared, State.sp, Config.spIndex]
  · have h' : (7 : RegIdx) ≠ a := Ne.symm h
    simp [State.pop, State.popCleared, State.sp, Config.spIndex, h, h']

theorem State.pop_wf {s : State} (h : s.mem.wf) (a : RegIdx) : (s.pop a).mem.wf :=
  let s1 := s.setReg a (s.memRead s.sp)
  State.memWrite_wf (s := s1) h s1.sp 0

/-! ## The ALU (41_load_alu_output.md R93 to R96) -/

theorem aluApply_add (d src : RegIdx) :
    aluApply .add d src s = .ok (s.setReg d (BitVec.ofNat 8 ((s.reg d).toNat + (s.reg src).toNat))) := rfl

theorem aluApply_mul (d src : RegIdx) :
    aluApply .mul d src s = .ok (s.setReg d (BitVec.ofNat 8 ((s.reg d).toNat * (s.reg src).toNat))) := rfl

theorem aluApply_other (name : String) (d src : RegIdx) :
    aluApply (.other name) d src s = .error .unsupportedOperationError := rfl

end Sys2Proof.Machine
end

