-- ==== Sys2Proof/Laws/Operands.lean ====
section
/-! SUPPORT. The operand forms, the checks, the advance, and the one inversion lemma of the frame every instruction runs
in. -/

namespace Sys2Proof.Machine

theorem regOperand_ok {o : Byte} {r : RegIdx} (h : o.toNat = r.val) : regOperand o = .ok r := by
  have hlt : o.toNat < 8 := h ▸ r.isLt
  simp only [regOperand, hlt, dif_pos]
  exact congrArg Except.ok (Fin.ext h)

theorem regOperand_error {o : Byte} (h : 7 < o.toNat) : regOperand o = .error (.addressError .registerIndex) := by
  have : ¬ o.toNat < 8 := by omega
  simp [regOperand, this]

/-- A register operand is valid exactly from 0 to 7, and then names the register of its value. -/
theorem regOperand_eq_ok {o : Byte} {r : RegIdx} : regOperand o = .ok r ↔ o.toNat = r.val := by
  refine ⟨fun h => ?_, regOperand_ok⟩
  unfold regOperand at h
  split at h
  · cases h
    rfl
  · cases h

theorem regOperands_eq_ok {a b : Byte} {p : RegIdx × RegIdx} :
    regOperands a b = .ok p ↔ a.toNat = p.1.val ∧ b.toNat = p.2.val := by
  rw [← regOperand_eq_ok (o := a), ← regOperand_eq_ok (o := b)]
  rcases ha : regOperand a with ea | ra <;> rcases hb : regOperand b with eb | rb <;>
    simp [regOperands, ha, hb, bind, Except.bind, pure, Except.pure, Prod.ext_iff]

theorem regImmOperands_eq_ok {a v : Byte} {p : RegIdx × Byte} :
    regImmOperands a v = .ok p ↔ a.toNat = p.1.val ∧ v = p.2 := by
  rw [← regOperand_eq_ok (o := a)]
  rcases ha : regOperand a with ea | ra <;>
    simp [regImmOperands, ha, bind, Except.bind, pure, Except.pure, Prod.ext_iff]

theorem regOperands_error_left {a : Byte} (b : Byte) (h : 7 < a.toNat) :
    regOperands a b = .error (.addressError .registerIndex) := by
  simp [regOperands, regOperand_error h, bind, Except.bind]

theorem regOperands_error_right {a b : Byte} {r : RegIdx} (ha : a.toNat = r.val) (h : 7 < b.toNat) :
    regOperands a b = .error (.addressError .registerIndex) := by
  simp [regOperands, regOperand_ok ha, regOperand_error h, bind, Except.bind]

theorem regImmOperands_error {a : Byte} (v : Byte) (h : 7 < a.toNat) :
    regImmOperands a v = .error (.addressError .registerIndex) := by
  simp [regImmOperands, regOperand_error h, bind, Except.bind]

/-- Only one reason can come from operands. -/
theorem regOperand_reason {o : Byte} {r : Reason} (h : regOperand o = .error r) : r = .addressError .registerIndex := by
  unfold regOperand at h
  split at h
  · cases h
  · cases h
    rfl

/-! ## The checks (40_cycle_and_dispatch.md R75, R79) -/

theorem checkOperandFetch_ok {ir pc : Byte} (h : pc.toNat + nops ir ≤ 255) : checkOperandFetch ir pc = .ok () :=
  if_neg (Nat.not_lt.mpr h)

theorem checkOperandFetch_error {ir pc : Byte} (h : pc.toNat + nops ir > 255) :
    checkOperandFetch ir pc = .error (.addressError .operandFetch) :=
  if_pos h

theorem checkPcAdvance_ok {ir pc : Byte} (h : setsPC ir = false → pc.toNat + count ir + 1 ≤ 255) :
    checkPcAdvance ir pc = .ok () :=
  if_neg fun hh => Nat.not_lt.mpr (h hh.1) hh.2

theorem checkPcAdvance_error {ir pc : Byte} (hs : setsPC ir = false) (h : pc.toNat + count ir + 1 > 255) :
    checkPcAdvance ir pc = .error (.addressError .pcAdvance) :=
  if_pos ⟨hs, h⟩

/-! ## The advance (40_cycle_and_dispatch.md R78) -/

section
variable (ir pc0 : Byte) (t : State)

@[simp] theorem advancePc_regs : (advancePc ir pc0 t).regs = t.regs := by unfold advancePc; split <;> rfl
@[simp] theorem advancePc_run : (advancePc ir pc0 t).run = t.run := by unfold advancePc; split <;> rfl
@[simp] theorem advancePc_fault : (advancePc ir pc0 t).fault = t.fault := by unfold advancePc; split <;> rfl
@[simp] theorem advancePc_out : (advancePc ir pc0 t).out = t.out := by unfold advancePc; split <;> rfl
@[simp] theorem advancePc_mem : (advancePc ir pc0 t).mem = t.mem := by unfold advancePc; split <;> rfl
@[simp] theorem advancePc_reg (q : RegIdx) : (advancePc ir pc0 t).reg q = t.reg q := by simp [State.reg]
@[simp] theorem advancePc_memRead (c : Byte) : (advancePc ir pc0 t).memRead c = t.memRead c := by simp [State.memRead]

end

/-- Where the advance applies, and has been checked not to leave 0 to 255, it is exact. -/
theorem advancePc_pc_of_advance {ir pc0 : Byte} (t : State) (h : setsPC ir = false)
    (hle : pc0.toNat + count ir + 1 ≤ 255) : (advancePc ir pc0 t).pc.toNat = pc0.toNat + count ir + 1 := by
  simp only [advancePc, h, Bool.false_eq_true, if_false, State.setPc, BitVec.toNat_ofNat]
  omega

/-- Where the opcode says that the instruction sets pc itself, the advance does nothing. -/
theorem advancePc_of_setsPC {ir : Byte} (pc0 : Byte) (t : State) (h : setsPC ir = true) : advancePc ir pc0 t = t := by
  simp [advancePc, h]

/-! ## The frame every instruction runs in (R70, R80) -/

section
variable {α : Type} {ir : Byte} {operands : Except Reason α} {effect : α → State → Except Reason State} {s t : State}

/-- All that running an instruction can do: it takes a fault of one of four kinds, having written nothing else, or every
check has passed and it commits its effect and the advance. -/
theorem runChecked_cases (h : runChecked ir operands effect s = .next t) :
    (s.pc.toNat + nops ir > 255 ∧ t = s.takeFault (.addressError .operandFetch) ir) ∨
    (s.pc.toNat + nops ir ≤ 255 ∧ ∃ r, operands = .error r ∧ t = s.takeFault r ir) ∨
    (∃ o, s.pc.toNat + nops ir ≤ 255 ∧ operands = .ok o ∧ setsPC ir = false ∧ s.pc.toNat + count ir + 1 > 255 ∧
      t = s.takeFault (.addressError .pcAdvance) ir) ∨
    (∃ o, s.pc.toNat + nops ir ≤ 255 ∧ operands = .ok o ∧ (setsPC ir = false → s.pc.toNat + count ir + 1 ≤ 255) ∧
      ((∃ r, effect o s = .error r ∧ t = s.takeFault r ir) ∨
        (∃ u, effect o s = .ok u ∧ t = advancePc ir s.pc u))) := by
  simp only [runChecked, checkOperandFetch, checkPcAdvance] at h
  by_cases hf : s.pc.toNat + nops ir > 255
  · simp only [hf, if_true] at h
    cases h
    exact .inl ⟨hf, rfl⟩
  · have hle : s.pc.toNat + nops ir ≤ 255 := by omega
    simp only [hf, if_false] at h
    rcases operands with r | o
    · cases h
      exact .inr (.inl ⟨hle, r, rfl, rfl⟩)
    · by_cases hp : setsPC ir = false ∧ s.pc.toNat + count ir + 1 > 255
      · simp only [bind, Except.bind, hp, and_self, if_true] at h
        cases h
        exact .inr (.inr (.inl ⟨o, hle, rfl, hp.1, hp.2, rfl⟩))
      · simp only [bind, Except.bind, hp, if_false] at h
        refine .inr (.inr (.inr ⟨o, hle, rfl, fun hs => Nat.le_of_not_lt fun hh => hp ⟨hs, hh⟩, ?_⟩))
        rcases he : effect o s with r | u
        · rw [he] at h
          cases h
          exact .inl ⟨r, rfl, rfl⟩
        · rw [he] at h
          cases h
          exact .inr ⟨u, rfl, rfl⟩

/-- Running an instruction always gives a next state. -/
theorem runChecked_next : ∃ t, runChecked ir operands effect s = .next t := by
  unfold runChecked conclude
  split <;> exact ⟨_, rfl⟩

/-- When every check passes, the effect and the advance are committed. -/
theorem runChecked_commit {o : α} {u : State} (hf : s.pc.toNat + nops ir ≤ 255) (ho : operands = .ok o)
    (hp : setsPC ir = false → s.pc.toNat + count ir + 1 ≤ 255) (he : effect o s = .ok u) :
    runChecked ir operands effect s = .next (advancePc ir s.pc u) := by
  simp only [runChecked, checkOperandFetch_ok hf, checkPcAdvance_ok hp, ho, he, bind, Except.bind, pure, Except.pure,
    conclude]

theorem runChecked_operandFetch (hf : s.pc.toNat + nops ir > 255) :
    runChecked ir operands effect s = .next (s.takeFault (.addressError .operandFetch) ir) := by
  simp only [runChecked, checkOperandFetch_error hf, bind, Except.bind, conclude]

theorem runChecked_operandError {r : Reason} (hf : s.pc.toNat + nops ir ≤ 255) (ho : operands = .error r) :
    runChecked ir operands effect s = .next (s.takeFault r ir) := by
  simp only [runChecked, checkOperandFetch_ok hf, ho, bind, Except.bind, conclude]

theorem runChecked_pcAdvance {o : α} (hf : s.pc.toNat + nops ir ≤ 255) (ho : operands = .ok o)
    (hs : setsPC ir = false) (hp : s.pc.toNat + count ir + 1 > 255) :
    runChecked ir operands effect s = .next (s.takeFault (.addressError .pcAdvance) ir) := by
  simp only [runChecked, checkOperandFetch_ok hf, checkPcAdvance_error hs hp, ho, bind, Except.bind, conclude]

end

end Sys2Proof.Machine
end

