-- ==== Sys2Proof/Laws/Exec.lean ====
section
/-! SUPPORT. Each instruction as the shared frame run on its opcode, operands and effect. -/

namespace Sys2Proof.Machine

variable (a b v : Byte) (s : State)

theorem exec_hlt : exec .hlt s = runChecked opHLT noOperand (fun _ t => .ok t.halt) s := rfl

theorem exec_prn : exec (.prn a) s = runChecked opPRN (regOperand a) (fun r t => .ok (t.emit (t.reg r))) s := rfl

theorem exec_ldi : exec (.ldi a v) s = runChecked opLDI (regImmOperands a v) (fun o t => .ok (t.setReg o.1 o.2)) s := rfl

theorem exec_mul : exec (.mul a b) s = runChecked opMUL (regOperands a b) (fun o t => aluApply .mul o.1 o.2 t) s := rfl

theorem exec_push : exec (.push a) s = runChecked opPUSH (regOperand a) (fun r t => .ok (t.push r)) s := rfl

theorem exec_pop : exec (.pop a) s = runChecked opPOP (regOperand a) (fun r t => .ok (t.pop r)) s := rfl

theorem exec_call : exec (.call a) s =
    runChecked opCALL (regOperand a) (fun r t => .ok ((t.push r).setPc ((t.push r).memRead (t.push r).sp))) s := rfl

theorem exec_ret : exec (.ret a) s =
    runChecked opRET (regOperand a) (fun r t => .ok ((t.pop r).setPc ((t.pop r).reg r))) s := rfl

theorem exec_jmp : exec (.jmp a) s = runChecked opJMP (regOperand a) (fun r t => .ok (t.setPc (t.reg r))) s := rfl

/-- The effect of an instruction whose operands are valid, before the advance. -/
def Effect (s u : State) : Instr → Prop
  | .hlt => u = s.halt
  | .prn a => ∃ r : RegIdx, a.toNat = r.val ∧ u = s.emit (s.reg r)
  | .ldi a v => ∃ r : RegIdx, a.toNat = r.val ∧ u = s.setReg r v
  | .mul a b => ∃ ra rb : RegIdx, a.toNat = ra.val ∧ b.toNat = rb.val ∧
      u = s.setReg ra (BitVec.ofNat 8 ((s.reg ra).toNat * (s.reg rb).toNat))
  | .push a => ∃ r : RegIdx, a.toNat = r.val ∧ u = s.push r
  | .pop a => ∃ r : RegIdx, a.toNat = r.val ∧ u = s.pop r
  | .call a => ∃ r : RegIdx, a.toNat = r.val ∧ u = (s.push r).setPc ((s.push r).memRead (s.push r).sp)
  | .ret a => ∃ r : RegIdx, a.toNat = r.val ∧ u = (s.pop r).setPc ((s.pop r).reg r)
  | .jmp a => ∃ r : RegIdx, a.toNat = r.val ∧ u = s.setPc (s.reg r)

theorem regOperands_reason {a b : Byte} {r : Reason} (h : regOperands a b = .error r) :
    r = .addressError .registerIndex := by
  rcases ha : regOperand a with ea | ra
  · simp only [regOperands, ha, bind, Except.bind] at h
    cases h
    exact regOperand_reason ha
  · rcases hb : regOperand b with eb | rb
    · simp only [regOperands, ha, hb, bind, Except.bind] at h
      cases h
      exact regOperand_reason hb
    · simp only [regOperands, ha, hb, bind, Except.bind] at h
      cases h

theorem regImmOperands_reason {a v : Byte} {r : Reason} (h : regImmOperands a v = .error r) :
    r = .addressError .registerIndex := by
  rcases ha : regOperand a with ea | ra
  · simp only [regImmOperands, ha, bind, Except.bind] at h
    cases h
    exact regOperand_reason ha
  · simp only [regImmOperands, ha, bind, Except.bind] at h
    cases h

/-- The inversion for an instruction whose operands can only be out of range and whose effect cannot fault. -/
theorem runChecked_inv {α : Type} {ir : Byte} {operands : Except Reason α}
    {effect : α → State → Except Reason State} {s t : State} {P : State → Prop}
    (h : runChecked ir operands effect s = .next t)
    (hreason : ∀ r, operands = .error r → r = .addressError .registerIndex)
    (heffect : ∀ o, operands = .ok o → ∃ u, effect o s = .ok u ∧ P u) :
    (∃ d, t = s.takeFault (.addressError d) ir) ∨
      (s.pc.toNat + nops ir ≤ 255 ∧ (setsPC ir = false → s.pc.toNat + count ir + 1 ≤ 255) ∧
        ∃ u, P u ∧ t = advancePc ir s.pc u) := by
  rcases runChecked_cases h with ⟨_, rfl⟩ | ⟨_, r, hr, rfl⟩ | ⟨o, _, _, _, _, rfl⟩ | ⟨o, hf, ho, hp, he⟩
  · exact .inl ⟨_, rfl⟩
  · rw [hreason r hr]
    exact .inl ⟨_, rfl⟩
  · exact .inl ⟨_, rfl⟩
  · obtain ⟨u, hu, hP⟩ := heffect o ho
    rcases he with ⟨r, hr, -⟩ | ⟨u', hu', rfl⟩
    · rw [hu] at hr
      cases hr
    · rw [hu] at hu'
      cases hu'
      exact .inr ⟨hf, hp, u, hP, rfl⟩

/-- All that executing an instruction can do: take an AddressError, having written nothing else, or, with every check
passed, commit its effect and the advance. -/
theorem exec_cases {i : Instr} {s t : State} (h : exec i s = .next t) :
    (∃ d, t = s.takeFault (.addressError d) i.opcode) ∨
      (s.pc.toNat + nops i.opcode ≤ 255 ∧ (setsPC i.opcode = false → s.pc.toNat + count i.opcode + 1 ≤ 255) ∧
        ∃ u, Effect s u i ∧ t = advancePc i.opcode s.pc u) := by
  cases i with
  | hlt =>
    rw [exec_hlt] at h
    exact runChecked_inv h (fun r hr => by simp [noOperand] at hr) (fun _ _ => ⟨_, rfl, rfl⟩)
  | prn a =>
    rw [exec_prn] at h
    exact runChecked_inv h (fun _ => regOperand_reason) (fun o ho => ⟨_, rfl, o, regOperand_eq_ok.mp ho, rfl⟩)
  | ldi a v =>
    rw [exec_ldi] at h
    refine runChecked_inv h (fun _ => regImmOperands_reason) fun o ho => ?_
    obtain ⟨ha, rfl⟩ := regImmOperands_eq_ok.mp ho
    exact ⟨_, rfl, o.1, ha, rfl⟩
  | mul a b =>
    rw [exec_mul] at h
    refine runChecked_inv h (fun _ => regOperands_reason) fun o ho => ?_
    obtain ⟨ha, hb⟩ := regOperands_eq_ok.mp ho
    exact ⟨_, aluApply_mul s o.1 o.2, o.1, o.2, ha, hb, rfl⟩
  | push a =>
    rw [exec_push] at h
    exact runChecked_inv h (fun _ => regOperand_reason) (fun o ho => ⟨_, rfl, o, regOperand_eq_ok.mp ho, rfl⟩)
  | pop a =>
    rw [exec_pop] at h
    exact runChecked_inv h (fun _ => regOperand_reason) (fun o ho => ⟨_, rfl, o, regOperand_eq_ok.mp ho, rfl⟩)
  | call a =>
    rw [exec_call] at h
    exact runChecked_inv h (fun _ => regOperand_reason) (fun o ho => ⟨_, rfl, o, regOperand_eq_ok.mp ho, rfl⟩)
  | ret a =>
    rw [exec_ret] at h
    exact runChecked_inv h (fun _ => regOperand_reason) (fun o ho => ⟨_, rfl, o, regOperand_eq_ok.mp ho, rfl⟩)
  | jmp a =>
    rw [exec_jmp] at h
    exact runChecked_inv h (fun _ => regOperand_reason) (fun o ho => ⟨_, rfl, o, regOperand_eq_ok.mp ho, rfl⟩)

/-- Executing an instruction always gives a next state. -/
theorem exec_next (i : Instr) (s : State) : ∃ t, exec i s = .next t := by
  cases i <;> simp only [exec_hlt, exec_prn, exec_ldi, exec_mul, exec_push, exec_pop, exec_call, exec_ret, exec_jmp] <;>
    exact runChecked_next

end Sys2Proof.Machine
end

