-- ==== Sys2Proof/Laws/PerInstr.lean ====
section
/-! SUPPORT. One statement about every instruction as syntax, with one lemma per constructor. -/

namespace Sys2Proof.Laws.EncodingShape

/-- An instruction's bytes are its opcode byte, one of the nine, and as many operand bytes as its operation reads
(30_encoding.md R52, R53, R55; 40_cycle_and_dispatch.md R74), which is what its format says (R52). -/
def Statement (i : Instr) : Prop :=
  (encode i).head? = some i.opcode ∧ i.opcode ∈ definedOpcodes ∧ (encode i).length = 1 + nops i.opcode ∧
    nops i.opcode = i.format.operandBytes

theorem hlt : Statement .hlt := by simp [Statement]; decide
theorem prn (a : Byte) : Statement (.prn a) := ⟨rfl, by simp only [Instr.opcode]; decide, rfl, rfl⟩
theorem ldi (a v : Byte) : Statement (.ldi a v) := ⟨rfl, by simp only [Instr.opcode]; decide, rfl, rfl⟩
theorem mul (a b : Byte) : Statement (.mul a b) := ⟨rfl, by simp only [Instr.opcode]; decide, rfl, rfl⟩
theorem push (a : Byte) : Statement (.push a) := ⟨rfl, by simp only [Instr.opcode]; decide, rfl, rfl⟩
theorem pop (a : Byte) : Statement (.pop a) := ⟨rfl, by simp only [Instr.opcode]; decide, rfl, rfl⟩
theorem call (a : Byte) : Statement (.call a) := ⟨rfl, by simp only [Instr.opcode]; decide, rfl, rfl⟩
theorem ret (a : Byte) : Statement (.ret a) := ⟨rfl, by simp only [Instr.opcode]; decide, rfl, rfl⟩
theorem jmp (a : Byte) : Statement (.jmp a) := ⟨rfl, by simp only [Instr.opcode]; decide, rfl, rfl⟩

end Sys2Proof.Laws.EncodingShape
end

