-- ==== Sys2Proof/Laws/Step.lean ====
section
/-! SUPPORT. What a fetch sees and what a step can do. -/

namespace Sys2Proof.Machine

/-- The bytes the decoder is given: the opcode byte, and the bytes after it as far as there are cells. -/
theorem State.fetchBytes_eq (s : State) : s.fetchBytes =
    if s.pc.toNat = 255 then [s.fetchOpcode]
    else if s.pc.toNat = 254 then [s.fetchOpcode, s.memRead (s.pc + 1)]
    else [s.fetchOpcode, s.memRead (s.pc + 1), s.memRead (s.pc + 2)] := by
  have hlt := s.pc.isLt
  by_cases h5 : s.pc.toNat = 255
  · simp [State.fetchBytes, Memory.bytesFrom, Config.memSize, h5, State.fetchOpcode, State.memRead]
  · have h1 : (s.pc + 1).toNat = s.pc.toNat + 1 := by
      rw [BitVec.toNat_add]
      simp
      omega
    by_cases h4 : s.pc.toNat = 254
    · simp [State.fetchBytes, Memory.bytesFrom, Config.memSize, State.fetchOpcode, State.memRead, h4]
    · have h2 : (s.pc + 2).toNat = s.pc.toNat + 2 := by
        rw [BitVec.toNat_add]
        simp
        omega
      have e0 : s.pc.toNat < 256 := by omega
      have e1 : s.pc.toNat + 1 < 256 := by omega
      have e2 : s.pc.toNat + 1 + 1 < 256 := by omega
      simp only [State.fetchBytes, Memory.bytesFrom, Config.memSize, State.fetchOpcode, State.memRead, h1, h2, h4, h5,
        e0, e1, e2, if_true, if_false]

/-- All that a step can do: it exists only from a Running state, and takes a fault found at fetch or decode, or executes
the decoded instruction. -/
theorem step_cases {s t : State} (h : step s = .next t) :
    s.run = .running ∧
      ((∃ e, decode s.fetchBytes = .error e ∧ t = s.takeFault (decodeReason e) s.fetchOpcode) ∨
        (∃ i rest, decode s.fetchBytes = .ok (i, rest) ∧ exec i s = .next t)) := by
  unfold step State.front at h
  rcases hr : s.run with _ | _ | _ <;> simp only [hr] at h
  · refine ⟨rfl, ?_⟩
    rcases hd : decode s.fetchBytes with e | ⟨i, rest⟩ <;> simp only [hd] at h
    · cases h
      exact .inl ⟨e, rfl, rfl⟩
    · exact .inr ⟨i, rest, rfl, h⟩
  · cases h
  · cases h

/-- A Running state steps as its decoded bytes say. -/
theorem step_of_running {s : State} (h : s.run = .running) : step s =
    match decode s.fetchBytes with
    | .ok (i, _) => exec i s
    | .error e => .next (s.takeFault (decodeReason e) s.fetchOpcode) := by
  unfold step State.front
  rw [h]
  rcases decode s.fetchBytes with e | ⟨i, rest⟩ <;> rfl

end Sys2Proof.Machine
end

