-- ==== Sys2Proof/Tests/Slice0.lean ====
section
/-! SUPPORT. Tests whose expected results are the spec's own (95_test_vectors.md, and the worked examples of the rules), and
for each statement with hypotheses a witness that meets them. -/

namespace Sys2Proof.Tests

open Sys2Proof.Machine

/-- A Running state at pc with some registers and cells set. -/
def st (pc : Byte) (regs : List (RegIdx × Byte)) (cells : List (Byte × Byte)) : State :=
  cells.foldl (fun s c => s.memWrite c.1 c.2) (regs.foldl (fun s r => s.setReg r.1 r.2) (State.reset.setPc pc))

/-- A view of the next state, where there is one. -/
def after {α : Type} (r : Result) (f : State → α) : Option α :=
  match r with
  | .next t => some (f t)
  | .fault _ => none
  | .refused _ => none

/-! ## Well-formedness: an ill-formed term for each check -/

theorem test_wf_hlt : Instr.hlt.wellFormed = true := by decide
theorem test_wf_prn : (Instr.prn 7).wellFormed = true ∧ (Instr.prn 8).wellFormed = false := by decide
theorem test_wf_ldi : (Instr.ldi 7 200).wellFormed = true ∧ (Instr.ldi 8 0).wellFormed = false := by decide
theorem test_wf_mul_first : (Instr.mul 8 0).wellFormed = false := by decide
theorem test_wf_mul_second : (Instr.mul 0 8).wellFormed = false := by decide
theorem test_wf_push : (Instr.push 255).wellFormed = false := by decide
theorem test_wf_pop : (Instr.pop 9).wellFormed = false := by decide
theorem test_wf_call : (Instr.call 8).wellFormed = false := by decide
theorem test_wf_ret : (Instr.ret 0x82).wellFormed = false := by decide
theorem test_wf_jmp : (Instr.jmp 8).wellFormed = false := by decide

/-! ## Decoding: each constructor from a word written out from the layouts of 30_encoding.md R52 and R55 -/

theorem test_decode_hlt : decode [0b00000001] = .ok (.hlt, []) := by decide
theorem test_decode_prn : decode [0b01000111, 0b00000011] = .ok (.prn 3, []) := by decide
theorem test_decode_ldi : decode [0b10000010, 0b00000000, 0b00001000] = .ok (.ldi 0 8, []) := by decide
theorem test_decode_mul : decode [0b10100010, 0b00000001, 0b00000010] = .ok (.mul 1 2, []) := by decide
theorem test_decode_push : decode [0b01000101, 0b00000111] = .ok (.push 7, []) := by decide
theorem test_decode_pop : decode [0b01000110, 0b00000001] = .ok (.pop 1, []) := by decide
theorem test_decode_call : decode [0b01010000, 0b00000001] = .ok (.call 1, []) := by decide
theorem test_decode_ret : decode [0b00010001, 0b00000010] = .ok (.ret 2, []) := by decide
theorem test_decode_jmp : decode [0b01010100, 0b00000101] = .ok (.jmp 5, []) := by decide

/-- 95_test_vectors.md section 2.6: near neighbours of defined opcodes, zero, the count = 3 space. -/
theorem test_decode_undefined : ∀ ir ∈ ([0x00, 0xA0, 0x10, 0xC0, 0xFF, 0x02, 0x44, 0x48, 0x83, 0xA3, 0x51, 0x55, 0x12] : List Byte),
    decode [ir, 0, 1] = .error (.unknownOpcode ir) := by decide

/-- The bits above nbits are 0: the opcode byte alone gives operand bytes of 0. -/
theorem test_table_word : decodeTableWord 8 0x82 = some (.ldi 0 0) ∧ decodeTableWord 8 0x00 = none := by decide

/-! ## The instructions (95_test_vectors.md section 2) -/

/-- V2: 200 * 200 = 40000 = 156 * 256 + 64. -/
theorem test_mul_wraps :
    after (step (st 0 [(0, 200), (1, 200)] [(0, 0xA2), (1, 0), (2, 1)])) (fun t => (t.reg 0, t.reg 1, t.pc)) =
      some (64, 200, 3) := by decide

theorem test_mul_into_sp :
    after (step (st 0 [(0, 2)] [(0, 0xA2), (1, 7), (2, 0)])) (fun t => (t.reg 7, t.reg 0)) = some (0xE6, 2) := by decide

/-- The source's first instruction: LDI R0, 8. -/
theorem test_ldi : after (step (st 0 [] [(0, 0x82), (1, 0), (2, 8)])) (fun t => (t.reg 0, t.pc)) = some (8, 3) := by decide

theorem test_ldi_priority :
    after (step (st 253 [] [(253, 0x82), (254, 9), (255, 0)])) (fun t => (t.run, t.fault)) =
      some (.faulted, some ⟨.addressError, 1, 253, 0x82, some .registerIndex⟩) := by decide

theorem test_prn_sp : after (step (st 0 [] [(0, 0x47), (1, 7)])) (fun t => (t.out, t.pc)) = some ([243], 2) := by decide

theorem test_prn_at_254 :
    after (step (st 254 [] [(254, 0x47), (255, 0)])) (fun t => (t.out, t.pc, t.fault)) =
      some ([], 254, some ⟨.addressError, 1, 254, 0x47, some .pcAdvance⟩) := by decide

theorem test_push_sp :
    after (step (st 0 [] [(0, 0x45), (1, 7)])) (fun t => (t.reg 7, t.memRead 0xF2, t.pc)) = some (0xF2, 0xF2, 2) := by decide

theorem test_push_wraps :
    after (step (st 16 [(0, 9), (7, 0)] [(16, 0x45), (17, 0)])) (fun t => (t.reg 7, t.memRead 0xFF, t.pc)) =
      some (0xFF, 9, 18) := by decide

theorem test_pop_sp :
    after (step (st 0 [(7, 0xF2)] [(0, 0x46), (1, 7), (0xF2, 0x40), (0x40, 5)]))
      (fun t => (t.reg 7, t.memRead 0x40, t.memRead 0xF2)) = some (0x41, 0, 0x40) := by decide

theorem test_pop_wraps :
    after (step (st 0 [(7, 0xFF)] [(0, 0x46), (1, 0), (0xFF, 7)])) (fun t => (t.reg 0, t.memRead 0xFF, t.reg 7)) =
      some (7, 0, 0) := by decide

theorem test_call_sp :
    after (step (st 3 [] [(3, 0x50), (4, 7)])) (fun t => (t.reg 7, t.memRead 0xF2, t.pc)) = some (0xF2, 0xF2, 0xF2) := by decide

theorem test_call_at_254 :
    after (step (st 254 [(1, 4)] [(254, 0x50), (255, 1)])) (fun t => (t.reg 7, t.memRead 0xF2, t.pc, t.run)) =
      some (0xF2, 4, 4, .running) := by decide

theorem test_ret_sp :
    after (step (st 16 [(7, 0xF2)] [(16, 0x11), (17, 7), (0xF2, 0x40), (0x40, 5)]))
      (fun t => (t.reg 7, t.memRead 0x40, t.pc)) = some (0x41, 0, 0x41) := by decide

theorem test_ret_before_ldi :
    after (step (st 16 [] [(16, 0x11), (17, 0x82)])) (fun t => (t.reg 7, t.fault)) =
      some (0xF3, some ⟨.addressError, 1, 16, 0x11, some .registerIndex⟩) := by decide

theorem test_jmp_not_advanced :
    after (step (st 6 [(0, 6)] [(6, 0x54), (7, 0)])) (fun t => t.pc) = some 6 := by decide

theorem test_jmp_to_255 :
    after (step (st 6 [(0, 0xFF)] [(6, 0x54), (7, 0)])) (fun t => (t.pc, t.run)) = some (0xFF, .running) := by decide

theorem test_hlt_at_254 : after (step (st 254 [] [(254, 1)])) (fun t => (t.run, t.pc)) = some (.halted, 255) := by decide

theorem test_hlt_at_255 :
    after (step (st 255 [] [(255, 1)])) (fun t => (t.run, t.pc, t.fault)) =
      some (.faulted, 255, some ⟨.addressError, 1, 255, 0x01, some .pcAdvance⟩) := by decide

/-! ## Fetch, faults and the end of a run -/

/-- An unknown opcode outranks every address check. -/
theorem test_unknown_at_255 :
    after (step (st 255 [] [(255, 0xFF)])) (fun t => t.fault) = some (some ⟨.unknownOpcodeError, 3, 255, 0xFF, none⟩) := by
  decide

/-- RET reads a byte after itself although its count is 0. -/
theorem test_ret_at_255 :
    after (step (st 255 [] [(255, 0x11)])) (fun t => t.fault) =
      some (some ⟨.addressError, 1, 255, 0x11, some .operandFetch⟩) := by decide

/-- 95_test_vectors.md section 2.4: a PUSH over its own opcode byte completes normally. -/
theorem test_push_over_itself :
    after (step (st 0x20 [(0, 1), (7, 0x21)] [(0x20, 0x45), (0x21, 0)])) (fun t => (t.memRead 0x20, t.pc, t.run)) =
      some (0x01, 0x22, .running) := by decide

theorem test_no_step_after_halt : step (st 0 [] [(0, 1)]).halt = .fault .noStepHalted := rfl

/-- 95_test_vectors.md section 2.2: the values of the ALU's ADD. -/
theorem test_alu_add : aluFunction .add 255 1 = .ok 0 ∧ aluFunction .add 200 100 = .ok 44 ∧
    aluFunction .add 17 5 = .ok 22 := ⟨rfl, rfl, rfl⟩

theorem test_alu_other : aluFunction (.other "SUB") 1 1 = .error .unsupportedOperationError := rfl

/-- The host's placing of an instruction: the very next step runs it. -/
theorem test_with_fetch_word :
    after (step (State.reset.withFetchWord 24 0x080082)) (fun t => (t.reg 0, t.pc, t.run)) = some (8, 3, .running) := by decide

/-- Writing what an unlisted address reads as removes the entry. -/
theorem test_write_canonical : (Memory.write [(2, 7), (5, 1)] 2 0) = [(5, 1)] ∧
    (Memory.write [(2, 7), (5, 1)] 3 9) = [(2, 7), (3, 9), (5, 1)] := by decide

/-- 95_test_vectors.md V7: the image of the loader scenario is placed from address 0. -/
theorem test_launch_image :
    (State.launchImage (fun _ => 0xAA) [0b10000010, 0, 8, 1] (fun _ => 0xEE)).map
      (fun s => ([s.memRead 0, s.memRead 2, s.memRead 3, s.memRead 4], s.reg 6, s.reg 7)) =
      some ([0x82, 8, 1, 0xEE], 0xAA, 0xF3) := by decide

/-! ## Witnesses: for each statement with hypotheses, a state and operands that meet them -/

theorem witness_DecodeInvertsEncode : ([0x11, 7, 9] : List Byte) = encode (.ret 7) ++ [9] := by decide

theorem witness_DecodeByWholeOpcodeByte : decode (0x45 :: [255]) = .ok (.push 255, []) := by decide

theorem witness_DecodeRejectsExactly : decode [] = .error .noBytes ∧ decode (0xA0 :: []) = .error (.unknownOpcode 0xA0) ∧
    decode (0x11 :: []) = .error (.missingOperand 0x11) ∧ decode (0x82 :: [0]) = .error (.missingOperand 0x82) := by decide

theorem witness_StepRunsDecodedInstruction :
    let s := st 254 [] [(254, 0x54), (255, 7)]
    s.run = .running ∧ decode s.fetchBytes = .ok (.jmp 7, []) := by decide

theorem witness_StepRunsInstructionInMemory :
    let s := st 253 [] [(253, 0xA2), (254, 0), (255, 7)]
    s.run = .running ∧ s.pc.toNat + (encode (.mul 0 7)).length ≤ 256 ∧
      ∀ k < (encode (.mul 0 7)).length, (encode (.mul 0 7))[k]? = some (s.memRead (s.pc + BitVec.ofNat 8 k)) := by decide

theorem witness_StepChecksInOrder_unknown :
    let s := st 255 [] [(255, 0xC0)]
    s.run = .running ∧ after (step s) State.fault = some (some (unknownOpcodeRecord 0xC0 255)) := by decide

theorem witness_StepChecksInOrder_operandFetch :
    let s := st 254 [] [(254, 0xA2), (255, 9)]
    s.run = .running ∧ after (step s) State.fault = some (some (addressErrorRecord .operandFetch 0xA2 254)) := by decide

theorem witness_StepChecksInOrder_firstRegister :
    let s := st 253 [] [(253, 0x82), (254, 8), (255, 0)]
    s.run = .running ∧ after (step s) State.fault = some (some (addressErrorRecord .registerIndex 0x82 253)) := by decide

theorem witness_StepChecksInOrder_secondRegister :
    let s := st 253 [] [(253, 0xA2), (254, 7), (255, 8)]
    s.run = .running ∧ after (step s) State.fault = some (some (addressErrorRecord .registerIndex 0xA2 253)) := by decide

theorem witness_StepChecksInOrder_pcAdvance :
    let s := st 253 [] [(253, 0xA2), (254, 7), (255, 7)]
    s.run = .running ∧ after (step s) State.fault = some (some (addressErrorRecord .pcAdvance 0xA2 253)) := by decide

theorem witness_StepChecksInOrder_commits :
    let s := st 252 [] [(252, 0xA2), (253, 7), (254, 7)]
    s.run = .running ∧ after (step s) State.fault = some none := by decide

theorem witness_StepExistsExactlyWhenRunning :
    (∃ t, step (st 0 [] [(0, 1)]) = .next t) ∧ step (st 0 [] []).halt = .fault .noStepHalted ∧
      step ((st 0 [] []).takeFault .unknownOpcodeError 0) = .fault .noStepFaulted := ⟨⟨_, rfl⟩, rfl, rfl⟩

theorem witness_FaultsArePrecise : ∃ t, step (st 0 [] [(0, 0x45), (1, 8)]) = .next t ∧ t.run = .faulted := ⟨_, rfl, rfl⟩

theorem witness_UnsupportedOperationNeverRaised :
    ∃ t, step (st 0 [] [(0, 0xA2), (1, 0), (2, 8)]) = .next t ∧ t.run = .faulted := ⟨_, rfl, rfl⟩

theorem witness_HaltedReachedOnlyByHlt : ∃ t, step (st 254 [] [(254, 1)]) = .next t ∧ t.run = .halted := ⟨_, rfl, rfl⟩

theorem witness_OutputGrowsOnlyByPrn :
    (∃ t, step (st 0 [(0, 5)] [(0, 0x47)]) = .next t ∧ t.out = [5]) ∧
      (∃ t, step (st 0 [] [(0, 0x82)]) = .next t ∧ t.out = []) := ⟨⟨_, rfl, rfl⟩, ⟨_, rfl, rfl⟩⟩

theorem witness_PcAdvancesByCount :
    let s := st 252 [] [(252, 0x82)]
    (s.memRead s.pc).toNat / 16 % 2 = 0 ∧ after (step s) (fun t => (t.run, t.pc)) = some (.running, 255) := by decide

theorem witness_RegistersWrittenAsListed_ldi :
    let s := st 0 [] []
    after (exec (.ldi 7 1) s) (fun t => decide (t.reg 7 ≠ s.reg 7)) = some true := by decide

theorem witness_RegistersWrittenAsListed_push :
    after (exec (.push 0) (st 0 [] [])) (fun t => decide (t.reg 7 ≠ (st 0 [] []).reg 7)) = some true := by decide

theorem witness_RegistersWrittenAsListed_pop :
    let s := st 0 [] [(0xF3, 9)]
    after (exec (.pop 1) s) (fun t => decide (t.reg 1 ≠ s.reg 1 ∧ t.reg 7 ≠ s.reg 7)) = some true := by decide

theorem witness_UnnamedRegisterHasNoInfluence :
    (∀ o ∈ (Instr.mul 0 1).registerOperands, o.toNat ≠ (7 : RegIdx).val) ∧
      ((7 : RegIdx) = 7 → (Instr.mul 0 1).usesStack = false) ∧ ∃ t, exec (.mul 0 1) (st 0 [] []) = .next t :=
  ⟨by decide, by decide, _, rfl⟩

theorem witness_NoInstructionReadsOutputOrFault : ∃ t, exec (.ret 0) (st 0 [] []) = .next t := ⟨_, rfl⟩

theorem witness_MemoryChangesOnlyOnTheStack_push :
    let s := st 0 [(7, 0), (0, 5)] []
    after (exec (.push 0) s) (fun t => decide (t.memRead 255 ≠ s.memRead 255)) = some true := by decide

theorem witness_MemoryChangesOnlyOnTheStack_pop :
    let s := st 0 [] [(0xF3, 0x40), (0x40, 9)]
    after (exec (.pop 7) s) (fun t => decide (t.memRead 0x40 ≠ s.memRead 0x40)) = some true := by decide

theorem witness_RegistersReadAsLastWritten :
    (([(1, 5), (7, 2), (1, 6)] : List (RegIdx × Byte)).foldl (fun u w => u.setReg w.1 w.2) State.reset).reg 1 = 6 ∧
      (7 : Byte).toNat = (7 : RegIdx).val := by decide

theorem witness_MemoryIsPlainStorage :
    after (exec (.prn 0) (st 253 [] [(255, 4)])) (fun t => (t.memRead 255, t.out)) = some (4, [0]) := by decide

/-- Two ways to the same state: the same cells written in different orders. -/
theorem witness_StateIsItsSixComponents :
    (st 0 [] [(255, 4), (0, 1), (9, 3), (9, 0)]).mem.wf ∧ (st 0 [] [(0, 1), (255, 4)]).mem.wf ∧
      st 0 [] [(255, 4), (0, 1), (9, 3), (9, 0)] = st 0 [] [(0, 1), (255, 4)] := by decide

/-- A state other than reset that meets the invariant, and steps. -/
theorem witness_StepKeepsInvariant : (st 0 [(0, 5)] [(0, 0x45), (9, 1)]).Inv ∧
    ∃ t, step (st 0 [(0, 5)] [(0, 0x45), (9, 1)]) = .next t :=
  ⟨⟨by decide, fun _ => rfl, fun h => Run.noConfusion h⟩, _, rfl⟩

/-- A Faulted state that meets the invariant (its third clause). -/
theorem witness_StatusOutputs : ((st 0 [] []).takeFault .unknownOpcodeError 0).Inv :=
  ⟨by decide, fun h => absurd rfl h, fun _ => ⟨_, rfl, ⟨rfl, by decide⟩, rfl, rfl⟩⟩

/-- The status outputs of a state, read together. -/
def statusOutputs (t : State) : Bool × Nat × Option Nat × Option Byte × Option Byte :=
  (t.haltedFlag, t.faultCode, t.faultDetail, t.faultPc, t.faultOpcode)

/-- Each kind of record shows its code, detail, pc and opcode. -/
theorem witness_StatusOutputs_shown :
    after (step (st 255 [] [(255, 0x47)])) statusOutputs = some (false, 1, some 1, some 255, some 0x47) ∧
      after (step (st 254 [] [(254, 0x47), (255, 8)])) statusOutputs = some (false, 1, some 2, some 254, some 0x47) ∧
      after (step (st 254 [] [(254, 0x47)])) statusOutputs = some (false, 1, some 3, some 254, some 0x47) ∧
      after (step (st 9 [] [])) statusOutputs = some (false, 3, none, some 9, some 0) ∧
      after (step (st 9 [] [(9, 1)])) statusOutputs = some (true, 0, none, none, none) :=
  ⟨rfl, rfl, rfl, rfl, rfl⟩

theorem witness_ReachedStatesMeetInvariant :
    after (runSteps 1 (State.launch (fun _ => 0x55) (fun a => if a = 0 then 0x45 else 7))) (fun t => (t.reg 7, t.pc)) =
      some (0xF2, 2) := by decide

theorem witness_OutputOnlyGrowsAlongARun :
    after (runSteps 1 (st 0 [] [(0, 0x47), (1, 7)])) State.out = some [243] := by decide

theorem witness_LaunchImageFromZero :
    256 < (List.replicate 257 (0 : Byte)).length ∧ (List.replicate 256 (0 : Byte)).length ≤ 256 ∧
      ([1, 2] : List Byte)[(1 : Byte).toNat]? = some 2 ∧ ([1, 2] : List Byte).length ≤ (2 : Byte).toNat :=
  ⟨by rw [List.length_replicate]; decide, by rw [List.length_replicate], rfl, by decide⟩

/-- LDI's clauses at their boundaries: pc 254; pc 253 with operand 8; pc 253 with operand 7; pc 252 with operand 7. -/
theorem witness_LdiLoadsImmediate :
    after (exec (.ldi 8 1) (st 254 [] [])) State.fault = some (some (addressErrorRecord .operandFetch 0x82 254)) ∧
    after (exec (.ldi 8 1) (st 253 [] [])) State.fault = some (some (addressErrorRecord .registerIndex 0x82 253)) ∧
    after (exec (.ldi 7 1) (st 253 [] [])) State.fault = some (some (addressErrorRecord .pcAdvance 0x82 253)) ∧
    after (exec (.ldi 7 1) (st 252 [] [])) (fun t => (t.reg 7, t.pc)) = some (1, 255) := by decide

theorem witness_MulMultipliesModulo256 :
    after (exec (.mul 8 8) (st 254 [] [])) State.fault = some (some (addressErrorRecord .operandFetch 0xA2 254)) ∧
    after (exec (.mul 8 7) (st 253 [] [])) State.fault = some (some (addressErrorRecord .registerIndex 0xA2 253)) ∧
    after (exec (.mul 7 8) (st 253 [] [])) State.fault = some (some (addressErrorRecord .registerIndex 0xA2 253)) ∧
    after (exec (.mul 7 7) (st 253 [] [])) State.fault = some (some (addressErrorRecord .pcAdvance 0xA2 253)) ∧
    after (exec (.mul 0 7) (st 252 [(0, 2)] [])) (fun t => (t.reg 0, t.pc)) = some (0xE6, 255) := by decide

theorem witness_PrnAppendsRegister :
    after (exec (.prn 8) (st 255 [] [])) State.fault = some (some (addressErrorRecord .operandFetch 0x47 255)) ∧
    after (exec (.prn 8) (st 254 [] [])) State.fault = some (some (addressErrorRecord .registerIndex 0x47 254)) ∧
    after (exec (.prn 7) (st 254 [] [])) State.fault = some (some (addressErrorRecord .pcAdvance 0x47 254)) ∧
    after (exec (.prn 7) (st 253 [] [])) (fun t => (t.out, t.pc)) = some ([243], 255) := by decide

theorem witness_PushStoresBelowStackPointer :
    after (exec (.push 8) (st 255 [] [])) State.fault = some (some (addressErrorRecord .operandFetch 0x45 255)) ∧
    after (exec (.push 8) (st 254 [] [])) State.fault = some (some (addressErrorRecord .registerIndex 0x45 254)) ∧
    after (exec (.push 7) (st 254 [] [])) State.fault = some (some (addressErrorRecord .pcAdvance 0x45 254)) ∧
    after (exec (.push 7) (st 253 [(7, 0)] [])) (fun t => (t.reg 7, t.memRead 255, t.pc)) = some (255, 255, 255) := by decide

theorem witness_PopLoadsAndClears :
    after (exec (.pop 8) (st 255 [] [])) State.fault = some (some (addressErrorRecord .operandFetch 0x46 255)) ∧
    after (exec (.pop 8) (st 254 [] [])) State.fault = some (some (addressErrorRecord .registerIndex 0x46 254)) ∧
    after (exec (.pop 7) (st 254 [] [])) State.fault = some (some (addressErrorRecord .pcAdvance 0x46 254)) ∧
    after (exec (.pop 7) (st 253 [] [(0xF3, 0xFF)])) (fun t => (t.reg 7, t.memRead 0xFF, t.pc)) = some (0, 0, 255) ∧
    after (exec (.pop 6) (st 253 [] [(0xF3, 5)])) (fun t => (t.reg 6, t.memRead 0xF3, t.reg 7)) = some (5, 0, 0xF4) := by decide

theorem witness_CallPushesTargetAndJumps :
    after (exec (.call 8) (st 255 [] [])) State.fault = some (some (addressErrorRecord .operandFetch 0x50 255)) ∧
    after (exec (.call 8) (st 254 [] [])) State.fault = some (some (addressErrorRecord .registerIndex 0x50 254)) ∧
    after (exec (.call 7) (st 254 [(7, 0)] [])) (fun t => (t.reg 7, t.memRead 255, t.pc)) = some (255, 255, 255) := by decide

theorem witness_RetPopsAndJumps :
    after (exec (.ret 8) (st 255 [] [])) State.fault = some (some (addressErrorRecord .operandFetch 0x11 255)) ∧
    after (exec (.ret 8) (st 254 [] [])) State.fault = some (some (addressErrorRecord .registerIndex 0x11 254)) ∧
    after (exec (.ret 7) (st 254 [] [(0xF3, 0xFF)])) (fun t => (t.reg 7, t.memRead 0xFF, t.pc)) = some (0, 0, 0) ∧
    after (exec (.ret 6) (st 254 [] [(0xF3, 5)])) (fun t => (t.reg 6, t.memRead 0xF3, t.pc)) = some (5, 0, 5) := by decide

theorem witness_JmpSetsPcToRegister :
    after (exec (.jmp 8) (st 255 [] [])) State.fault = some (some (addressErrorRecord .operandFetch 0x54 255)) ∧
    after (exec (.jmp 8) (st 254 [] [])) State.fault = some (some (addressErrorRecord .registerIndex 0x54 254)) ∧
    after (exec (.jmp 7) (st 254 [] [])) (fun t => (t.pc, t.run)) = some (0xF3, .running) := by decide

theorem witness_HltHaltsAndAdvances :
    after (exec .hlt (st 255 [] [])) State.fault = some (some (addressErrorRecord .pcAdvance 0x01 255)) ∧
    after (exec .hlt (st 254 [] [])) (fun t => (t.run, t.pc)) = some (.halted, 255) := by decide

/-- V3's bytes, at the highest address they fit: PUSH R2, POP R2 at 251. -/
theorem witness_PushThenPopRestores :
    let s := st 251 [(2, 0x37)] [(251, 0x45), (252, 2), (253, 0x46), (254, 2)]
    (2 : Byte).toNat ≤ 7 ∧ s.run = .running ∧ s.pc.toNat ≤ 251 ∧ s.memRead s.pc = 0x45 ∧ s.memRead (s.pc + 1) = 2 ∧
      s.memRead (s.pc + 2) = 0x46 ∧ s.memRead (s.pc + 3) = 2 ∧
      ∀ k : Nat, k < 4 → s.reg 7 - 1 ≠ s.pc + BitVec.ofNat 8 k := by decide

theorem witness_PushThenPopCopies :
    let s := st 251 [(0, 5)] []
    (0 : Byte).toNat = (0 : RegIdx).val ∧ (6 : Byte).toNat = (6 : RegIdx).val ∧ (0 : RegIdx) ≠ 7 ∧ (6 : RegIdx) ≠ 7 ∧
      s.pc.toNat ≤ 251 := by decide

theorem witness_PushedByteIsNextOpcode :
    let s := st 253 [(0, 1), (7, 0)] []
    (0 : Byte).toNat = (0 : RegIdx).val ∧ (0 : RegIdx) ≠ 7 ∧ s.pc.toNat ≤ 253 ∧ s.reg 7 - 1 = s.pc + 2 := by decide

theorem witness_RetAfterCallGoesToTarget :
    (7 : Byte).toNat = (7 : RegIdx).val ∧ (2 : Byte).toNat = (2 : RegIdx).val ∧ (2 : RegIdx) ≠ 7 ∧
      (st 254 [] []).pc.toNat ≤ 254 ∧ (254 : Byte).toNat ≤ 254 := by decide

theorem witness_JumpToItselfNeverEnds :
    let s := st 254 [(7, 254)] [(254, 0x54), (255, 7)]
    s.run = .running ∧ s.pc.toNat ≤ 254 ∧ s.memRead s.pc = 0x54 ∧
      (s.memRead (s.pc + 1)).toNat = (7 : RegIdx).val ∧ s.reg 7 = s.pc := by decide

end Sys2Proof.Tests
end

section
/-! The registers as plain storage (10_state.md R11). -/

namespace Sys2Proof.Machine

/-- Storage in which a read sees the last write, and a write touches no other place, reads after any sequence of writes as
the last one to the place read. The induction is on the LAST write, the one a read sees first. -/
theorem read_foldl_write {σ α β : Type} [DecidableEq α] {read : σ → α → β} {write : σ → α → β → σ}
    (read_write : ∀ s a v c, read (write s a v) c = if c = a then v else read s c)
    (s : σ) (writes : List (α × β)) (c : α) :
    read (writes.foldl (fun u w => write u w.1 w.2) s) c =
      ((writes.reverse.find? fun w => w.1 == c).map Prod.snd).getD (read s c) := by
  induction writes using List.reverseRecOn with
  | nil => rfl
  | append_singleton ws w ih =>
    rw [List.foldl_concat, read_write, List.reverse_concat]
    by_cases hw : c = w.1
    · simp [hw]
    · simp [hw, Ne.symm hw, ih]

/-- Settles O19: `State.reg_setReg` makes the register file such a storage, and `regOperand_eq_ok` names the registers. -/
theorem registersReadAsLastWritten : Obligations.RegistersReadAsLastWritten :=
  ⟨read_foldl_write fun s r v q => s.reg_setReg r q v, fun _ _ => regOperand_eq_ok⟩

end Sys2Proof.Machine
end

section
/-! The memory as plain storage (20_memory.md R30). -/

namespace Sys2Proof.Machine

/-- A sequence of byte writes acts on the memory alone (R30: no cell has a side effect). -/
theorem State.foldl_memWrite (s : State) (writes : List (Byte × Byte)) :
    writes.foldl (fun u w => u.memWrite w.1 w.2) s =
      { s with mem := writes.foldl (fun m w => m.write w.1.toNat w.2) s.mem } :=
  List.foldl_hom (fun m => { s with mem := m }) fun _ _ => rfl

/-- A launch state's cells read as MEM_INIT gives them (R30; 92_eei_decisions.md D14). -/
theorem State.memRead_launch (regInit : Fin 7 → Byte) (memInit : Nat → Byte) (c : Byte) :
    (State.launch regInit memInit).memRead c = memInit c.toNat :=
  Memory.read_ofCells memInit c.isLt

/-- PRN's output does not go through memory (R30), nor does a fault of PRN write any. -/
theorem memRead_of_exec_prn {a : Byte} {s t : State} (h : exec (.prn a) s = .next t) (c : Byte) :
    t.memRead c = s.memRead c := by
  rcases exec_cases h with ⟨d, rfl⟩ | ⟨_, _, u, ⟨r, _, rfl⟩, rfl⟩
  · rw [State.memRead_takeFault]
  · rw [advancePc_memRead, State.memRead_emit]

/-- Settles O20: `State.memRead_memWrite` makes the memory such a storage as `read_foldl_write` speaks of, and
`State.foldl_memWrite` is the frame. -/
theorem memoryIsPlainStorage : Obligations.MemoryIsPlainStorage := by
  refine ⟨fun s writes c => ⟨?last, ?frame⟩, State.memRead_launch, fun _ => rfl,
    fun _ _ _ c h => memRead_of_exec_prn h c⟩
  case last => exact read_foldl_write (fun s a v c => s.memRead_memWrite a c v) s writes c
  case frame =>
    rw [State.foldl_memWrite]
    exact ⟨fun _ => rfl, rfl, rfl, rfl, rfl⟩

end Sys2Proof.Machine
end

section
/-! Decoding by the whole opcode byte (30_encoding.md R56). -/

namespace Sys2Proof

/-- A format with one operand byte keeps the opcode byte its constructor stands for. -/
theorem opcode_of_decodeOne {ir : Byte} {mk : Byte → Instr} {bs rem : List Byte} {i : Instr}
    (h : decodeOne ir mk bs = .ok (i, rem)) (hmk : ∀ a, (mk a).opcode = ir) : i.opcode = ir := by
  obtain ⟨a, -, rfl⟩ := decodeOne_eq_ok.1 h
  exact hmk a

/-- The same for a format with two operand bytes. -/
theorem opcode_of_decodeTwo {ir : Byte} {mk : Byte → Byte → Instr} {bs rem : List Byte} {i : Instr}
    (h : decodeTwo ir mk bs = .ok (i, rem)) (hmk : ∀ a b, (mk a b).opcode = ir) : i.opcode = ir := by
  obtain ⟨a, b, -, rfl⟩ := decodeTwo_eq_ok.1 h
  exact hmk a b

/-- The first byte of what decodes is the whole opcode byte of the instruction read: each branch of the dispatcher
compares all of it, and the last one, for a byte that is none of the nine, reads nothing. -/
theorem opcode_of_decode {ir : Byte} {rest rem : List Byte} {i : Instr}
    (h : decode (ir :: rest) = .ok (i, rem)) : i.opcode = ir := by
  rw [decode] at h
  split_ifs at h with hHLT hPRN hLDI hMUL hPUSH hPOP hCALL hRET hJMP
  · cases h
    exact hHLT.symm
  · exact opcode_of_decodeOne h fun _ => hPRN.symm
  · exact opcode_of_decodeTwo h fun _ _ => hLDI.symm
  · exact opcode_of_decodeTwo h fun _ _ => hMUL.symm
  · exact opcode_of_decodeOne h fun _ => hPUSH.symm
  · exact opcode_of_decodeOne h fun _ => hPOP.symm
  · exact opcode_of_decodeOne h fun _ => hCALL.symm
  · exact opcode_of_decodeOne h fun _ => hRET.symm
  · exact opcode_of_decodeOne h fun _ => hJMP.symm

/-- Settles O2: two bytes after the opcode are enough operands for every row, so each row computes; and by
`opcode_of_decode` what decodes carries its instruction's own opcode, whose row is read off constructor by constructor. -/
theorem decodeByWholeOpcodeByte : Obligations.DecodeByWholeOpcodeByte := by
  refine ⟨by decide, fun row hrow x y rest => ?selects, fun ir rest i rem h => ?only⟩
  case selects => fin_cases hrow <;> exact ⟨_, _, rfl, rfl⟩
  case only =>
    rw [← opcode_of_decode h]
    cases i <;> simp only [Instr.mnemonic, Instr.opcode] <;> decide

end Sys2Proof
end

section
/-! The two fields the engine reads from the opcode byte (40_cycle_and_dispatch.md R72). -/

namespace Sys2Proof

/-- Bits 7:6 are the byte shifted right by six, and nothing stands above them. -/
theorem count_eq_div (ir : Byte) : count ir = ir.toNat / 64 := by
  have hshift : count ir = ir.toNat / 64 % 4 := by
    rw [count, BitVec.extractLsb'_toNat, Nat.shiftRight_eq_div_pow]
  have hbyte : ir.toNat < 256 := ir.isLt
  omega

/-- A field of two bits is at most 3. -/
theorem count_le_three (ir : Byte) : count ir ≤ 3 :=
  Nat.le_of_lt_succ (ir.extractLsb' 6 2).isLt

theorem setsPC_eq_decide (ir : Byte) : setsPC ir = decide (ir.toNat / 16 % 2 = 1) :=
  Nat.testBit_eq_decide_div_mod_eq

/-- Settles O4: the fields of an arbitrary byte by arithmetic on its value, and those of the nine opcodes, whose operands
play no part, by the field lemmas `count_opHLT` to `setsPC_opJMP`. -/
theorem opcodeFields : Obligations.OpcodeFields := by
  refine ⟨fun ir => ⟨count_eq_div ir, count_le_three ir, setsPC_eq_decide ir⟩, fun i => ?_⟩
  cases i with
  | hlt => exact ⟨count_opHLT, setsPC_opHLT⟩
  | prn _ => exact ⟨count_opPRN, setsPC_opPRN⟩
  | ldi _ _ => exact ⟨count_opLDI, setsPC_opLDI⟩
  | mul _ _ => exact ⟨count_opMUL, setsPC_opMUL⟩
  | push _ => exact ⟨count_opPUSH, setsPC_opPUSH⟩
  | pop _ => exact ⟨count_opPOP, setsPC_opPOP⟩
  | call _ => exact ⟨count_opCALL, setsPC_opCALL⟩
  | ret _ => exact ⟨count_opRET, setsPC_opRET⟩
  | jmp _ => exact ⟨count_opJMP, setsPC_opJMP⟩

end Sys2Proof
end

section
/-! Decoding as the inverse of encoding, and exactly what does not decode (30_encoding.md sections 1 to 4). -/

namespace Sys2Proof

/-- Reading back an instruction's bytes gives it and leaves the rest unread. -/
theorem decode_encode_append (i : Instr) (rest : List Byte) : decode (encode i ++ rest) = .ok (i, rest) := by
  cases i <;> rfl

/-- What decodes is the encoding of the instruction read, before the rest: its first byte is the instruction's opcode
(`opcode_of_decode`), and the operand reader for that opcode takes the operand bytes in order. -/
theorem eq_encode_append_of_decode {bytes rest : List Byte} {i : Instr} (h : decode bytes = .ok (i, rest)) :
    bytes = encode i ++ rest := by
  cases bytes with
  | nil => cases h
  | cons ir bs =>
    obtain rfl := opcode_of_decode h
    cases i with
    | hlt => cases h; rfl
    | prn _ | push _ | pop _ | call _ | ret _ | jmp _ =>
      obtain ⟨_, rfl, hi⟩ := decodeOne_eq_ok.1 h
      cases hi
      rfl
    | ldi _ _ | mul _ _ =>
      obtain ⟨_, _, rfl, hi⟩ := decodeTwo_eq_ok.1 h
      cases hi
      rfl

theorem decode_eq_ok_iff {bytes rest : List Byte} {i : Instr} :
    decode bytes = .ok (i, rest) ↔ bytes = encode i ++ rest :=
  ⟨eq_encode_append_of_decode, fun h => h ▸ decode_encode_append i rest⟩

/-- Settles O1, by `eq_encode_append_of_decode` and `decode_encode_append`. -/
theorem decodeInvertsEncode : Obligations.DecodeInvertsEncode :=
  fun _ _ _ => decode_eq_ok_iff

/-- An opcode byte that is none of the nine passes no comparison of the dispatcher (R73). -/
theorem decode_of_not_defined {ir : Byte} (h : ir ∉ definedOpcodes) (rest : List Byte) :
    decode (ir :: rest) = .error (.unknownOpcode ir) := by
  simp only [definedOpcodes, List.mem_cons, List.not_mem_nil, or_false, not_or] at h
  simp [decode, h]

theorem decodeOne_cases (ir : Byte) (mk : Byte → Instr) (bs : List Byte) :
    (bs.length < 1 ∧ decodeOne ir mk bs = .error (.missingOperand ir)) ∨
      (1 ≤ bs.length ∧ ∃ i rem, decodeOne ir mk bs = .ok (i, rem)) := by
  rcases bs with _ | ⟨a, rem⟩
  · exact .inl ⟨Nat.one_pos, rfl⟩
  · exact .inr ⟨by simp, mk a, rem, rfl⟩

theorem decodeTwo_cases (ir : Byte) (mk : Byte → Byte → Instr) (bs : List Byte) :
    (bs.length < 2 ∧ decodeTwo ir mk bs = .error (.missingOperand ir)) ∨
      (2 ≤ bs.length ∧ ∃ i rem, decodeTwo ir mk bs = .ok (i, rem)) := by
  rcases bs with _ | ⟨a, _ | ⟨b, rem⟩⟩
  · exact .inl ⟨Nat.two_pos, rfl⟩
  · exact .inl ⟨Nat.one_lt_two, rfl⟩
  · exact .inr ⟨by simp, mk a b, rem, rfl⟩

/-- A defined opcode byte decodes exactly when the operand bytes its operation uses follow (R74, R75). -/
theorem decode_of_defined {ir : Byte} (h : ir ∈ definedOpcodes) (bs : List Byte) :
    (bs.length < nops ir ∧ decode (ir :: bs) = .error (.missingOperand ir)) ∨
      (nops ir ≤ bs.length ∧ ∃ i rem, decode (ir :: bs) = .ok (i, rem)) := by
  simp only [definedOpcodes, List.mem_cons, List.not_mem_nil, or_false] at h
  rcases h with rfl | rfl | rfl | rfl | rfl | rfl | rfl | rfl | rfl
  case inl => exact .inr ⟨Nat.zero_le _, .hlt, bs, rfl⟩
  · exact decodeOne_cases opPRN .prn bs
  · exact decodeTwo_cases opLDI .ldi bs
  · exact decodeTwo_cases opMUL .mul bs
  · exact decodeOne_cases opPUSH .push bs
  · exact decodeOne_cases opPOP .pop bs
  · exact decodeOne_cases opCALL .call bs
  · exact decodeOne_cases opRET .ret bs
  · exact decodeOne_cases opJMP .jmp bs

/-- What does not decode after an opcode byte, and why. -/
theorem decode_cons_errors (ir : Byte) (bs : List Byte) :
    (decode (ir :: bs) = .error (.unknownOpcode ir) ↔ ir ∉ definedOpcodes) ∧
      (decode (ir :: bs) = .error (.missingOperand ir) ↔ ir ∈ definedOpcodes ∧ bs.length < nops ir) := by
  by_cases hdef : ir ∈ definedOpcodes
  · rcases decode_of_defined hdef bs with ⟨hlt, hd⟩ | ⟨hle, i, rem, hd⟩
    · simp [hd, hdef, hlt]
    · simp [hd, hdef, hle]
  · simp [decode_of_not_defined hdef, hdef]

/-- Settles O3: `decode_cons_errors`, with the nine bytes and the operand counts written out. -/
theorem decodeRejectsExactly : Obligations.DecodeRejectsExactly :=
  ⟨rfl, decode_cons_errors⟩

/-- Settles O5: each of the spec's words computes. -/
theorem wordsOfTheSpecDecode : Obligations.WordsOfTheSpecDecode := by
  unfold Obligations.WordsOfTheSpecDecode
  decide

end Sys2Proof
end

section
/-! An instruction lying in memory at pc, and the checks at fetch (20_memory.md section 3; 40_cycle_and_dispatch.md
sections 1 to 3). -/

namespace Sys2Proof.Machine

theorem Memory.length_bytesFrom (m : Memory) (n a : Nat) : (m.bytesFrom n a).length = min n (Config.memSize - a) := by
  induction n generalizing a with
  | zero => simp [Memory.bytesFrom]
  | succ n ih =>
    rw [Memory.bytesFrom]
    split
    · rw [List.length_cons, ih]
      omega
    · rw [List.length_nil]
      omega

theorem Memory.getElem?_bytesFrom (m : Memory) {n a k : Nat} (hk : k < n) (ha : a + k < Config.memSize) :
    (m.bytesFrom n a)[k]? = some (m.read (a + k)) := by
  induction n generalizing a k with
  | zero => omega
  | succ n ih =>
    have hfirst : a < Config.memSize := by omega
    rw [Memory.bytesFrom, if_pos hfirst]
    cases k with
    | zero => rfl
    | succ k =>
      rw [List.getElem?_cons_succ, ih (by omega) (by omega), Nat.add_right_comm, Nat.add_assoc]

/-- The address k cells above pc, where that is a cell. -/
theorem toNat_pc_add {pc : Byte} {k : Nat} (h : pc.toNat + k < 256) : (pc + BitVec.ofNat 8 k).toNat = pc.toNat + k := by
  rw [BitVec.toNat_add, BitVec.toNat_ofNat]
  omega

theorem State.length_fetchBytes (s : State) : s.fetchBytes.length = min 3 (256 - s.pc.toNat) :=
  Memory.length_bytesFrom _ _ _

theorem State.getElem?_fetchBytes (s : State) {k : Nat} (hk : k < s.fetchBytes.length) :
    s.fetchBytes[k]? = some (s.memRead (s.pc + BitVec.ofNat 8 k)) := by
  rw [State.length_fetchBytes] at hk
  have hcell : s.pc.toNat + k < 256 := by omega
  rw [State.memRead, toNat_pc_add hcell]
  exact Memory.getElem?_bytesFrom s.mem (by omega) hcell

/-- The opcode byte always exists (R71), and after it at most two bytes. -/
theorem State.fetchBytes_eq_cons (s : State) :
    ∃ bs, s.fetchBytes = s.memRead s.pc :: bs ∧ bs.length = min 2 (255 - s.pc.toNat) := by
  have hpc : s.pc.toNat < 256 := s.pc.isLt
  refine ⟨s.mem.bytesFrom 2 (s.pc.toNat + 1), if_pos hpc, ?_⟩
  rw [Memory.length_bytesFrom, Config.memSize]
  omega

/-- An instruction's bytes lie in memory from pc upward, without passing address 255. -/
def LiesAtPc (i : Instr) (s : State) : Prop :=
  s.pc.toNat + (encode i).length ≤ 256 ∧
    ∀ k < (encode i).length, (encode i)[k]? = some (s.memRead (s.pc + BitVec.ofNat 8 k))

theorem length_encode (i : Instr) : (encode i).length = 1 + nops i.opcode := by
  cases i <;> rfl

theorem nops_le_two (ir : Byte) : nops ir ≤ 2 := by
  unfold nops
  split_ifs <;> decide

/-- The decoder reads an instruction at pc exactly when its bytes lie there. -/
theorem decode_fetchBytes_iff {s : State} {i : Instr} :
    (∃ rest, decode s.fetchBytes = .ok (i, rest)) ↔ LiesAtPc i s := by
  have hlen : (encode i).length ≤ 3 := by
    have := nops_le_two i.opcode
    rw [length_encode]
    omega
  have hpc : s.pc.toNat < 256 := s.pc.isLt
  constructor
  · rintro ⟨rest, hd⟩
    have hfetch := eq_encode_append_of_decode hd
    have hle : (encode i).length ≤ s.fetchBytes.length := by
      rw [hfetch, List.length_append]
      omega
    refine ⟨?_, fun k hk => ?_⟩
    · rw [State.length_fetchBytes] at hle
      omega
    · rw [← s.getElem?_fetchBytes (by omega), hfetch, List.getElem?_append_left hk]
  · rintro ⟨hfit, hbytes⟩
    have hpre : encode i <+: s.fetchBytes := List.prefix_iff_getElem?.2 fun k hk => by
      rw [← List.getElem?_eq_getElem hk, hbytes k hk]
      exact s.getElem?_fetchBytes (by rw [State.length_fetchBytes]; omega)
    obtain ⟨rest, hrest⟩ := hpre
    exact ⟨rest, hrest ▸ decode_encode_append i rest⟩

theorem LiesAtPc.opcode_eq {i : Instr} {s : State} (h : LiesAtPc i s) : i.opcode = s.memRead s.pc := by
  obtain ⟨rest, hd⟩ := decode_fetchBytes_iff.2 h
  obtain ⟨bs, hbs, -⟩ := s.fetchBytes_eq_cons
  rw [hbs] at hd
  exact opcode_of_decode hd

/-- Settles O6: `step_of_running` at bytes that decode. -/
theorem stepRunsDecodedInstruction : Obligations.StepRunsDecodedInstruction := by
  intro s i rest hrun hd
  rw [step_of_running hrun, hd]

theorem step_of_liesAtPc {s : State} {i : Instr} (hrun : s.run = .running) (h : LiesAtPc i s) : step s = exec i s :=
  have ⟨rest, hd⟩ := decode_fetchBytes_iff.2 h
  stepRunsDecodedInstruction s i rest hrun hd

/-- Settles O7: bytes lying at pc are the ones that decode there (`decode_fetchBytes_iff`). -/
theorem stepRunsInstructionInMemory : Obligations.StepRunsInstructionInMemory :=
  fun _ _ hrun hfit hbytes => step_of_liesAtPc hrun ⟨hfit, hbytes⟩

theorem takeFault_addressError (s : State) (d : Detail) (ir : Byte) :
    s.takeFault (.addressError d) ir = s.faultedWith (addressErrorRecord d ir s.pc) := rfl

/-- The opcode check (R73): its outcome. -/
theorem step_of_not_defined {s : State} (hrun : s.run = .running) (h : s.memRead s.pc ∉ definedOpcodes) :
    step s = .next (s.faultedWith (unknownOpcodeRecord (s.memRead s.pc) s.pc)) := by
  obtain ⟨bs, hbs, -⟩ := s.fetchBytes_eq_cons
  rw [step_of_running hrun, hbs, decode_of_not_defined h]
  rfl

/-- The operand-fetch check of a defined opcode (R75): where it fails. -/
theorem step_of_missing {s : State} (hrun : s.run = .running) (h : s.memRead s.pc ∈ definedOpcodes)
    (hfetch : s.pc.toNat + nops (s.memRead s.pc) > 255) :
    step s = .next (s.faultedWith (addressErrorRecord .operandFetch (s.memRead s.pc) s.pc)) := by
  obtain ⟨bs, hbs, hlen⟩ := s.fetchBytes_eq_cons
  have hpc : s.pc.toNat < 256 := s.pc.isLt
  rcases decode_of_defined h bs with ⟨-, hd⟩ | ⟨hle, -⟩
  · rw [step_of_running hrun, hbs, hd]
    rfl
  · omega

/-- Where a defined opcode's operand bytes exist, an instruction lies at pc. -/
theorem exists_liesAtPc {s : State} (h : s.memRead s.pc ∈ definedOpcodes)
    (hfetch : s.pc.toNat + nops (s.memRead s.pc) ≤ 255) : ∃ i, LiesAtPc i s := by
  obtain ⟨bs, hbs, hlen⟩ := s.fetchBytes_eq_cons
  have hops := nops_le_two (s.memRead s.pc)
  rcases decode_of_defined h bs with ⟨hlt, -⟩ | ⟨-, i, rem, hd⟩
  · omega
  · exact ⟨i, decode_fetchBytes_iff.1 ⟨rem, hbs ▸ hd⟩⟩

/-- A Running engine has a next state: a fault of the fetch, or what some instruction lying at pc leaves. -/
theorem step_next_of_running {s : State} (hrun : s.run = .running) : ∃ t, step s = .next t := by
  rw [step_of_running hrun]
  split
  · exact exec_next _ s
  · exact ⟨_, rfl⟩

theorem step_of_halted {s : State} (h : s.run = .halted) : step s = .fault .noStepHalted := by
  simp only [step, State.front, h]

theorem step_of_faulted {s : State} (h : s.run = .faulted) : step s = .fault .noStepFaulted := by
  simp only [step, State.front, h]

/-- Settles O9: the three run states one by one. -/
theorem stepExistsExactlyWhenRunning : Obligations.StepExistsExactlyWhenRunning := by
  intro s
  cases hrun : s.run with
  | running =>
    obtain ⟨t, ht⟩ := step_next_of_running hrun
    simp [ht]
  | halted => simp [step_of_halted hrun]
  | faulted => simp [step_of_faulted hrun]

end Sys2Proof.Machine
end

section
/-! What executing an instruction answers, exactly: the first of its three checks that fails, or its effect and the
advance (40_cycle_and_dispatch.md R70, R80). -/

namespace Sys2Proof.Machine

/-- The detail of the AddressError that executing an instruction at pc takes: its checks in R80's order, read off the
instruction and pc alone. -/
def addressFault (i : Instr) (pc : Byte) : Option Detail :=
  if pc.toNat + nops i.opcode > 255 then some .operandFetch
  else if i.wellFormed = false then some .registerIndex
  else if setsPC i.opcode = false ∧ pc.toNat + count i.opcode + 1 > 255 then some .pcAdvance
  else none

theorem wellFormed_iff {i : Instr} : i.wellFormed = true ↔ ∀ o ∈ i.registerOperands, o.toNat ≤ 7 := by
  simp [Instr.wellFormed, validRegister]

/-- No check fails exactly when each of the three passes. -/
theorem addressFault_eq_none {i : Instr} {pc : Byte} : addressFault i pc = none ↔
    pc.toNat + nops i.opcode ≤ 255 ∧ i.wellFormed = true ∧
      (setsPC i.opcode = false → pc.toNat + count i.opcode + 1 ≤ 255) := by
  unfold addressFault
  split_ifs with hfetch hreg hadv <;> simp_all

/-- A register operand from 0 to 7 names a register. -/
theorem exists_register {o : Byte} (h : o.toNat ≤ 7) : ∃ r : RegIdx, o.toNat = r.val :=
  ⟨⟨o.toNat, by omega⟩, rfl⟩

/-- An instruction whose register operands are valid has an effect. -/
theorem exists_effect {i : Instr} (h : i.wellFormed = true) (s : State) : ∃ u, Effect s u i := by
  rw [wellFormed_iff] at h
  cases i with
  | hlt => exact ⟨_, rfl⟩
  | mul a b =>
    obtain ⟨ra, ha⟩ := exists_register (h a (by simp [Instr.registerOperands]))
    obtain ⟨rb, hb⟩ := exists_register (h b (by simp [Instr.registerOperands]))
    exact ⟨_, ra, rb, ha, hb, rfl⟩
  | prn a | push a | pop a | call a | ret a | jmp a | ldi a _ =>
    obtain ⟨r, ha⟩ := exists_register (h a (by simp [Instr.registerOperands]))
    exact ⟨_, r, ha, rfl⟩

/-- Every instruction is the shared frame run on operands that are out of range exactly when it is ill-formed, and whose
effect is `Effect`. -/
theorem exec_eq_runChecked (i : Instr) :
    ∃ (α : Type) (operands : Except Reason α) (effect : α → State → Except Reason State),
      (∀ s, exec i s = runChecked i.opcode operands effect s) ∧
      (i.wellFormed = false → operands = .error (.addressError .registerIndex)) ∧
      ∀ s u, Effect s u i → ∃ o, operands = .ok o ∧ effect o s = .ok u := by
  cases i with
  | hlt =>
    refine ⟨_, _, _, exec_hlt, fun h => absurd h (by decide), fun s u h => ?_⟩
    obtain rfl := h
    exact ⟨(), rfl, rfl⟩
  | ldi a v =>
    refine ⟨_, _, _, exec_ldi a v, fun h => regImmOperands_error v ?_, fun s u h => ?_⟩
    · simpa [Instr.wellFormed, Instr.registerOperands, validRegister] using h
    · obtain ⟨r, ha, rfl⟩ := h
      exact ⟨(r, v), regImmOperands_eq_ok.2 ⟨ha, rfl⟩, rfl⟩
  | mul a b =>
    refine ⟨_, _, _, exec_mul a b, fun h => ?_, fun s u h => ?_⟩
    · simp only [Instr.wellFormed, Instr.registerOperands, validRegister, List.all_cons, List.all_nil, Bool.and_true,
        Bool.and_eq_false_iff, decide_eq_false_iff_not, not_le] at h
      by_cases ha : 7 < a.toNat
      · exact regOperands_error_left b ha
      · obtain ⟨ra, hra⟩ := exists_register (Nat.le_of_not_lt ha)
        exact regOperands_error_right hra (h.resolve_left ha)
    · obtain ⟨ra, rb, ha, hb, rfl⟩ := h
      exact ⟨(ra, rb), regOperands_eq_ok.2 ⟨ha, hb⟩, aluApply_mul s ra rb⟩
  | prn a | push a | pop a | call a | ret a | jmp a =>
    refine ⟨_, _, _, fun _ => rfl, fun h => regOperand_error ?_, fun s u h => ?_⟩
    · simpa [Instr.wellFormed, Instr.registerOperands, validRegister] using h
    · obtain ⟨r, ha, rfl⟩ := h
      exact ⟨r, regOperand_ok ha, rfl⟩

/-- The first check that fails is the fault taken, and it writes run and fault only. -/
theorem exec_of_addressFault {i : Instr} {s : State} {d : Detail} (h : addressFault i s.pc = some d) :
    exec i s = .next (s.faultedWith (addressErrorRecord d i.opcode s.pc)) := by
  obtain ⟨α, operands, effect, hexec, hinvalid, hvalid⟩ := exec_eq_runChecked i
  rw [hexec, ← takeFault_addressError]
  unfold addressFault at h
  split_ifs at h with hfetch hreg hadv <;> cases h
  · exact runChecked_operandFetch hfetch
  · exact runChecked_operandError (Nat.le_of_not_lt hfetch) (hinvalid hreg)
  · obtain ⟨u, hu⟩ := exists_effect (Bool.eq_true_of_not_eq_false hreg) s
    obtain ⟨o, ho, -⟩ := hvalid s u hu
    exact runChecked_pcAdvance (Nat.le_of_not_lt hfetch) ho hadv.1 hadv.2

/-- Where no check fails the instruction commits its effect and the advance. -/
theorem exec_of_effect {i : Instr} {s u : State} (h : addressFault i s.pc = none) (hu : Effect s u i) :
    exec i s = .next (advancePc i.opcode s.pc u) := by
  obtain ⟨α, operands, effect, hexec, -, hvalid⟩ := exec_eq_runChecked i
  obtain ⟨hfetch, -, hadv⟩ := addressFault_eq_none.1 h
  obtain ⟨o, ho, he⟩ := hvalid s u hu
  rw [hexec]
  exact runChecked_commit hfetch ho hadv he

/-- All that executing an instruction answers, told by `addressFault`. -/
theorem exec_eq_next_iff {i : Instr} {s t : State} : exec i s = .next t ↔
    (∃ d, addressFault i s.pc = some d ∧ t = s.faultedWith (addressErrorRecord d i.opcode s.pc)) ∨
      (addressFault i s.pc = none ∧ ∃ u, Effect s u i ∧ t = advancePc i.opcode s.pc u) := by
  constructor
  · intro h
    cases hf : addressFault i s.pc with
    | some d =>
      rw [exec_of_addressFault hf] at h
      cases h
      exact .inl ⟨d, rfl, rfl⟩
    | none =>
      obtain ⟨-, hwell, -⟩ := addressFault_eq_none.1 hf
      obtain ⟨u, hu⟩ := exists_effect hwell s
      rw [exec_of_effect hf hu] at h
      cases h
      exact .inr ⟨rfl, u, hu, rfl⟩
  · rintro (⟨d, hf, rfl⟩ | ⟨hf, u, hu, rfl⟩)
    · exact exec_of_addressFault hf
    · exact exec_of_effect hf hu

end Sys2Proof.Machine
end

section
/-! What an effect leaves unchanged, component by component. -/

namespace Sys2Proof.Machine

variable {i : Instr} {s u : State}

/-- Only HLT writes run (10_state.md R15). -/
theorem Effect.run_eq (h : Effect s u i) : u.run = if i = .hlt then .halted else s.run := by
  cases i with
  | hlt => obtain rfl := h; rfl
  | mul _ _ => obtain ⟨_, _, _, _, rfl⟩ := h; rfl
  | prn _ | ldi _ _ | push _ | pop _ | call _ | ret _ | jmp _ => obtain ⟨_, _, rfl⟩ := h; rfl

/-- No effect writes the fault record (10_state.md R16). -/
theorem Effect.fault_eq (h : Effect s u i) : u.fault = s.fault := by
  cases i with
  | hlt => obtain rfl := h; rfl
  | mul _ _ => obtain ⟨_, _, _, _, rfl⟩ := h; rfl
  | prn _ | ldi _ _ | push _ | pop _ | call _ | ret _ | jmp _ => obtain ⟨_, _, rfl⟩ := h; rfl

/-- Only PRN writes the output (10_state.md R17). -/
theorem Effect.out_eq (h : Effect s u i) (hi : i.opcode ≠ opPRN) : u.out = s.out := by
  cases i with
  | prn _ => exact absurd rfl hi
  | hlt => obtain rfl := h; rfl
  | mul _ _ => obtain ⟨_, _, _, _, rfl⟩ := h; rfl
  | ldi _ _ | push _ | pop _ | call _ | ret _ | jmp _ => obtain ⟨_, _, rfl⟩ := h; rfl

/-- Every effect keeps memory in canonical form: it leaves memory, or writes it by `push` or `pop`. -/
theorem Effect.mem_wf (h : Effect s u i) (hwf : s.mem.wf) : u.mem.wf := by
  cases i with
  | hlt => obtain rfl := h; exact hwf
  | mul _ _ => obtain ⟨_, _, _, _, rfl⟩ := h; exact hwf
  | prn _ | ldi _ _ | jmp _ => obtain ⟨_, _, rfl⟩ := h; exact hwf
  | push _ | call _ => obtain ⟨r, _, rfl⟩ := h; exact State.push_wf hwf r
  | pop _ | ret _ => obtain ⟨r, _, rfl⟩ := h; exact State.pop_wf hwf r

/-- An effect is not itself a fault. -/
theorem Effect.not_faulted (h : Effect s u i) (hrun : s.run ≠ .faulted) : u.run ≠ .faulted := by
  rw [h.run_eq]
  split
  · decide
  · exact hrun

end Sys2Proof.Machine
end

section
/-! Each instruction's faults in their order and its effect with its frame (41_load_alu_output.md, 42_stack.md,
43_control.md). -/

namespace Sys2Proof.Machine

/-! ## The faults, by the shape of the instruction -/

section
variable {i : Instr} {s : State} {n c : Nat}

theorem exec_operandFetch (hn : nops i.opcode = n) (h : s.pc.toNat + n > 255) :
    exec i s = .next (s.faultedWith (addressErrorRecord .operandFetch i.opcode s.pc)) :=
  exec_of_addressFault (if_pos (hn ▸ h))

theorem exec_registerIndex (hn : nops i.opcode = n) (hfetch : s.pc.toNat + n ≤ 255)
    (h : ∃ o ∈ i.registerOperands, 7 < o.toNat) :
    exec i s = .next (s.faultedWith (addressErrorRecord .registerIndex i.opcode s.pc)) := by
  have hill : i.wellFormed = false := by
    obtain ⟨o, ho, hlt⟩ := h
    rw [← Bool.not_eq_true, wellFormed_iff]
    exact fun hall => Nat.not_le.2 hlt (hall o ho)
  exact exec_of_addressFault (by rw [addressFault, hn, if_neg (Nat.not_lt.2 hfetch), if_pos hill])

theorem exec_pcAdvance (hn : nops i.opcode = n) (hs : setsPC i.opcode = false) (hc : count i.opcode = c)
    (hfetch : s.pc.toNat + n ≤ 255) (hreg : ∀ o ∈ i.registerOperands, o.toNat ≤ 7) (h : s.pc.toNat + c + 1 > 255) :
    exec i s = .next (s.faultedWith (addressErrorRecord .pcAdvance i.opcode s.pc)) := by
  have hwell : ¬ i.wellFormed = false := by simp [wellFormed_iff.2 hreg]
  exact exec_of_addressFault
    (by rw [addressFault, hn, hc, if_neg (Nat.not_lt.2 hfetch), if_neg hwell, if_pos ⟨hs, h⟩])

end

/-- The faults of an instruction with one operand byte, a register operand, which it has whether it advances or not. -/
theorem exec_oneOperand_faults {i : Instr} {a : Byte} (hn : nops i.opcode = 1) (ha : i.registerOperands = [a])
    (s : State) :
    (s.pc.toNat = 255 → exec i s = .next (s.faultedWith (addressErrorRecord .operandFetch i.opcode s.pc))) ∧
      (s.pc.toNat ≤ 254 → 7 < a.toNat →
        exec i s = .next (s.faultedWith (addressErrorRecord .registerIndex i.opcode s.pc))) :=
  ⟨fun hpc => exec_operandFetch hn (by omega), fun hpc hlt => exec_registerIndex hn (by omega) ⟨a, by simp [ha], hlt⟩⟩

/-- And the fault of the advance, where its count is 1 as well. -/
theorem exec_oneOperand_pcAdvance {i : Instr} {a : Byte} (hn : nops i.opcode = 1) (ha : i.registerOperands = [a])
    (hs : setsPC i.opcode = false) (hc : count i.opcode = 1) (s : State) :
    s.pc.toNat = 254 → a.toNat ≤ 7 →
      exec i s = .next (s.faultedWith (addressErrorRecord .pcAdvance i.opcode s.pc)) :=
  fun hpc hle => exec_pcAdvance hn hs hc (by omega) (by simpa [ha] using hle) (by omega)

/-! ## The commit, by bit 4 of the opcode -/

/-- Only valid operands have an effect. -/
theorem Effect.wellFormed {i : Instr} {s u : State} (h : Effect s u i) : i.wellFormed = true := by
  rw [wellFormed_iff]
  cases i with
  | hlt => simp [Instr.registerOperands]
  | mul _ _ =>
    obtain ⟨ra, rb, ha, hb, -⟩ := h
    simp only [Instr.registerOperands, List.forall_mem_cons, List.not_mem_nil, false_implies, implies_true, and_true]
    omega
  | prn _ | ldi _ _ | push _ | pop _ | call _ | ret _ | jmp _ =>
    obtain ⟨r, ha, -⟩ := h
    simp only [Instr.registerOperands, List.forall_mem_singleton]
    omega

/-- An instruction that advances uses as many operand bytes as its opcode counts (30_encoding.md R53). -/
theorem nops_eq_count {i : Instr} (h : setsPC i.opcode = false) : nops i.opcode = count i.opcode := by
  cases i with
  | call _ | ret _ | jmp _ => simp [Instr.opcode] at h
  | hlt | prn _ | ldi _ _ | mul _ _ | push _ | pop _ => simp [Instr.opcode]

/-- An instruction that sets pc itself uses one operand byte. -/
theorem nops_eq_one {i : Instr} (h : setsPC i.opcode = true) : nops i.opcode = 1 := by
  cases i with
  | call _ | ret _ | jmp _ => simp [Instr.opcode]
  | hlt | prn _ | ldi _ _ | mul _ _ | push _ | pop _ => simp [Instr.opcode] at h

/-- An instruction that advances commits its effect, with pc moved on and nothing else added. -/
theorem exec_advancing {i : Instr} {s u : State} {n : Nat} (hu : Effect s u i) (hs : setsPC i.opcode = false)
    (hc : count i.opcode = n) (hpc : s.pc.toNat + n + 1 ≤ 255) :
    ∃ t, exec i s = .next t ∧ t.pc.toNat = s.pc.toNat + (n + 1) ∧ (∀ q, t.reg q = u.reg q) ∧
      (∀ c, t.memRead c = u.memRead c) ∧ t.out = u.out ∧ t.run = u.run ∧ t.fault = u.fault := by
  subst hc
  have hfetch : s.pc.toNat + nops i.opcode ≤ 255 := by
    rw [nops_eq_count hs]
    omega
  exact ⟨_, exec_of_effect (addressFault_eq_none.2 ⟨hfetch, hu.wellFormed, fun _ => hpc⟩) hu,
    advancePc_pc_of_advance u hs hpc, advancePc_reg _ _ u, advancePc_memRead _ _ u, advancePc_out _ _ u,
    advancePc_run _ _ u, advancePc_fault _ _ u⟩

/-- An instruction that sets pc itself commits its effect as it is. -/
theorem exec_setting {i : Instr} {s u : State} (hu : Effect s u i) (hs : setsPC i.opcode = true)
    (hpc : s.pc.toNat ≤ 254) : exec i s = .next u := by
  have hfetch : s.pc.toNat + nops i.opcode ≤ 255 := by
    rw [nops_eq_one hs]
    omega
  rw [exec_of_effect (addressFault_eq_none.2 ⟨hfetch, hu.wellFormed, fun h => by simp [hs] at h⟩) hu,
    advancePc_of_setsPC _ _ hs]

/-! ## The stack operations, as their statements speak of them -/

theorem toNat_sub_one (x : Byte) : (x - 1).toNat = (x.toNat + 255) % 256 := by
  rw [BitVec.toNat_sub, Nat.add_comm]
  rfl

theorem toNat_add_one (x : Byte) : (x + 1).toNat = (x.toNat + 1) % 256 := BitVec.toNat_add x 1

/-- A state that reads like a push: the decremented stack pointer, and in the cell it addresses the register as it stands
after that (42_stack.md R110; 92_eei_decisions.md D10, D16). -/
theorem push_spec {s t : State} {r : RegIdx} (hreg : ∀ q, t.reg q = (s.push r).reg q)
    (hmem : ∀ c, t.memRead c = (s.push r).memRead c) :
    (t.reg 7).toNat = ((s.reg 7).toNat + 255) % 256 ∧ (∀ q, q ≠ 7 → t.reg q = s.reg q) ∧
      t.memRead (t.reg 7) = t.reg r ∧ ∀ c, c ≠ t.reg 7 → t.memRead c = s.memRead c := by
  have hsp : t.reg 7 = s.reg 7 - 1 := by rw [hreg, State.reg_push, if_pos rfl]
  refine ⟨?_, fun q hq => ?_, ?_, fun c hc => ?_⟩
  · rw [hsp, toNat_sub_one]
  · rw [hreg, State.reg_push, if_neg hq]
  · rw [hmem, hsp, State.memRead_push, if_pos rfl, hreg, State.reg_push]
  · rw [hmem, State.memRead_push, if_neg (hsp ▸ hc)]

/-- A state that reads like a pop: one register loaded, one cell cleared, the stack pointer above that cell (42_stack.md
R111; 92_eei_decisions.md D10, D16). -/
theorem pop_spec {s t : State} {r : RegIdx} (hreg : ∀ q, t.reg q = (s.pop r).reg q)
    (hmem : ∀ c, t.memRead c = (s.pop r).memRead c) :
    (r ≠ 7 → t.reg r = s.memRead (s.reg 7)) ∧ (t.reg 7).toNat = ((s.popCleared r).toNat + 1) % 256 ∧
      (∀ q, q ≠ r → q ≠ 7 → t.reg q = s.reg q) ∧ t.memRead (s.popCleared r) = 0 ∧
      ∀ c, c ≠ s.popCleared r → t.memRead c = s.memRead c := by
  refine ⟨fun hr => ?_, ?_, fun q hqr hq => ?_, ?_, fun c hc => ?_⟩
  · rw [hreg, State.reg_pop, if_neg hr, if_pos rfl]
  · rw [hreg, State.reg_pop, if_pos rfl, toNat_add_one]
  · rw [hreg, State.reg_pop, if_neg hq, if_neg hqr]
  · rw [hmem, State.memRead_pop, if_pos rfl]
  · rw [hmem, State.memRead_pop, if_neg hc]

/-! ## The instructions -/

/-- Settles O31: LDI writes one register. -/
theorem ldiLoadsImmediate : Obligations.LdiLoadsImmediate := by
  intro a v s
  refine ⟨rfl, fun hpc => exec_operandFetch nops_opLDI (by omega), fun hpc ha => ?index, fun hpc ha => ?advance,
    fun r ha hpc => ?commit⟩
  case index => exact exec_registerIndex nops_opLDI (by omega) ⟨a, by simp [Instr.registerOperands], ha⟩
  case advance =>
    exact exec_pcAdvance nops_opLDI setsPC_opLDI count_opLDI (by omega) (by simpa [Instr.registerOperands] using ha)
      (by omega)
  case commit =>
    obtain ⟨t, ht, hpc', hreg, hframe⟩ :=
      exec_advancing (i := .ldi a v) (s := s) ⟨r, ha, rfl⟩ setsPC_opLDI count_opLDI (by omega)
    exact ⟨t, ht, hpc', fun q => by rw [hreg, State.reg_setReg], hframe⟩

/-- Settles O32: MUL writes one register, with the ALU's product. -/
theorem mulMultipliesModulo256 : Obligations.MulMultipliesModulo256 := by
  intro a b s
  refine ⟨rfl, fun hpc => exec_operandFetch nops_opMUL (by omega), fun hpc hab => ?index, fun hpc ha hb => ?advance,
    fun ra rb ha hb hpc => ?commit⟩
  case index => exact exec_registerIndex nops_opMUL (by omega) (by simpa [Instr.registerOperands] using hab)
  case advance =>
    exact exec_pcAdvance nops_opMUL setsPC_opMUL count_opMUL (by omega)
      (by simpa [Instr.registerOperands] using ⟨ha, hb⟩) (by omega)
  case commit =>
    obtain ⟨t, ht, hpc', hreg, hframe⟩ :=
      exec_advancing (i := .mul a b) (s := s) ⟨ra, rb, ha, hb, rfl⟩ setsPC_opMUL count_opMUL (by omega)
    refine ⟨t, ht, hpc', ?_, fun q hq => ?_, hframe⟩
    · rw [hreg, State.reg_setReg, if_pos rfl, BitVec.toNat_ofNat]
    · rw [hreg, State.reg_setReg, if_neg hq]

/-- Settles O33: PRN appends to the output. -/
theorem prnAppendsRegister : Obligations.PrnAppendsRegister := by
  intro a s
  obtain ⟨hfetch, hindex⟩ := exec_oneOperand_faults (i := .prn a) rfl rfl s
  have hadvance := exec_oneOperand_pcAdvance (i := .prn a) rfl rfl setsPC_opPRN count_opPRN s
  refine ⟨rfl, hfetch, hindex, hadvance, fun r ha hpc => ?_⟩
  obtain ⟨t, ht, hpc', hreg, hmem, hout, hrun, hfault⟩ :=
    exec_advancing (i := .prn a) (s := s) ⟨r, ha, rfl⟩ setsPC_opPRN count_opPRN (by omega)
  exact ⟨t, ht, hpc', hout, hreg, hmem, hrun, hfault⟩

/-- Settles O34: PUSH reads like a push (`push_spec`) and advances. -/
theorem pushStoresBelowStackPointer : Obligations.PushStoresBelowStackPointer := by
  intro a s
  obtain ⟨hfetch, hindex⟩ := exec_oneOperand_faults (i := .push a) rfl rfl s
  have hadvance := exec_oneOperand_pcAdvance (i := .push a) rfl rfl setsPC_opPUSH count_opPUSH s
  refine ⟨rfl, hfetch, hindex, hadvance, fun r ha hpc => ?_⟩
  obtain ⟨t, ht, hpc', hreg, hmem, hframe⟩ :=
    exec_advancing (i := .push a) (s := s) ⟨r, ha, rfl⟩ setsPC_opPUSH count_opPUSH (by omega)
  obtain ⟨hsp, hother, hcell, hcells⟩ := push_spec hreg hmem
  exact ⟨t, ht, hpc', hsp, hother, hcell, hcells, hframe⟩

/-- Settles O35: POP reads like a pop (`pop_spec`) and advances. -/
theorem popLoadsAndClears : Obligations.PopLoadsAndClears := by
  intro a s
  obtain ⟨hfetch, hindex⟩ := exec_oneOperand_faults (i := .pop a) rfl rfl s
  have hadvance := exec_oneOperand_pcAdvance (i := .pop a) rfl rfl setsPC_opPOP count_opPOP s
  refine ⟨rfl, hfetch, hindex, hadvance, fun r ha hpc => ?_⟩
  obtain ⟨t, ht, hpc', hreg, hmem, hframe⟩ :=
    exec_advancing (i := .pop a) (s := s) ⟨r, ha, rfl⟩ setsPC_opPOP count_opPOP (by omega)
  obtain ⟨hload, hsp, hother, hcell, hcells⟩ := pop_spec hreg hmem
  exact ⟨t, ht, hpc', hload, hsp, hother, hcell, hcells, hframe⟩

/-- The byte a push leaves at the stack pointer, to which CALL jumps, is the register pushed. -/
theorem memRead_sp_push (s : State) (r : RegIdx) : (s.push r).memRead (s.push r).sp = (s.push r).reg r := by
  rw [State.sp_push, State.memRead_push, if_pos rfl, State.reg_push]

/-- Settles O36: CALL reads like a push, with pc at the byte pushed. -/
theorem callPushesTargetAndJumps : Obligations.CallPushesTargetAndJumps := by
  intro a s
  obtain ⟨hfetch, hindex⟩ := exec_oneOperand_faults (i := .call a) rfl rfl s
  refine ⟨rfl, hfetch, hindex, fun r ha hpc => ⟨_, exec_setting (i := .call a) ⟨r, ha, rfl⟩ setsPC_opCALL hpc,
    memRead_sp_push s r, ?_⟩⟩
  obtain ⟨hsp, hother, hcell, hcells⟩ := push_spec (s := s) (r := r) (fun _ => rfl) fun _ => rfl
  exact ⟨hsp, hother, hcell, hcells, rfl, rfl, rfl⟩

/-- Settles O37: RET reads like a pop, with pc at the register popped into. -/
theorem retPopsAndJumps : Obligations.RetPopsAndJumps := by
  intro a s
  obtain ⟨hfetch, hindex⟩ := exec_oneOperand_faults (i := .ret a) rfl rfl s
  refine ⟨rfl, hfetch, hindex, fun r ha hpc => ⟨_, exec_setting (i := .ret a) ⟨r, ha, rfl⟩ setsPC_opRET hpc, rfl, ?_⟩⟩
  obtain ⟨hload, hsp, hother, hcell, hcells⟩ := pop_spec (s := s) (r := r) (fun _ => rfl) fun _ => rfl
  exact ⟨hload, hsp, hother, hcell, hcells, rfl, rfl, rfl⟩

/-- Settles O38: JMP's effect is on pc alone. -/
theorem jmpSetsPcToRegister : Obligations.JmpSetsPcToRegister := by
  intro a s
  obtain ⟨hfetch, hindex⟩ := exec_oneOperand_faults (i := .jmp a) rfl rfl s
  exact ⟨rfl, hfetch, hindex, fun r ha hpc => ⟨_, exec_setting (i := .jmp a) ⟨r, ha, rfl⟩ setsPC_opJMP hpc,
    rfl, fun _ => rfl, fun _ => rfl, rfl, rfl, rfl⟩⟩

/-- Settles O39: HLT has no operand to check, and its effect is on run alone. -/
theorem hltHaltsAndAdvances : Obligations.HltHaltsAndAdvances := by
  intro s
  refine ⟨rfl, fun hpc => ?advance, fun hpc => ?commit⟩
  case advance =>
    exact exec_pcAdvance (i := .hlt) nops_opHLT setsPC_opHLT count_opHLT (by omega) (fun _ ho => by cases ho) (by omega)
  case commit =>
    obtain ⟨t, ht, hpc', hreg, hmem, hout, hrun, hfault⟩ :=
      exec_advancing (i := .hlt) (s := s) rfl setsPC_opHLT count_opHLT (by omega)
    exact ⟨t, ht, hrun, hpc', hreg, hmem, hout, hfault⟩

/-- Settles O40: the ALU's two operations are one register write each. -/
theorem aluAddsAndMultipliesModulo256 : Obligations.AluAddsAndMultipliesModulo256 := by
  intro d src s
  refine ⟨⟨_, aluApply_add s d src, ?_, fun q hq => ?_, rfl, rfl, rfl, rfl, fun _ => rfl⟩,
    ⟨_, aluApply_mul s d src, ?_, fun q hq => ?_, rfl, rfl, rfl, rfl, fun _ => rfl⟩,
    fun name => aluApply_other s name d src⟩
  · rw [State.reg_setReg, if_pos rfl, BitVec.toNat_ofNat]
  · rw [State.reg_setReg, if_neg hq]
  · rw [State.reg_setReg, if_pos rfl, BitVec.toNat_ofNat]
  · rw [State.reg_setReg, if_neg hq]

end Sys2Proof.Machine
end

section
/-! The step: its checks read off the raw bytes at pc, what a fault leaves, and what a commit does
(40_cycle_and_dispatch.md section 1; 60_exceptions.md). -/

namespace Sys2Proof.Machine

/-! ## The checks in order -/

/-- The bytes of an instruction lying at pc, one by one. -/
theorem LiesAtPc.memRead_eq {i : Instr} {s : State} {k : Nat} {b : Byte} (h : LiesAtPc i s)
    (hb : (encode i)[k]? = some b) : s.memRead (s.pc + BitVec.ofNat 8 k) = b := by
  obtain ⟨hk, -⟩ := List.getElem?_eq_some_iff.1 hb
  exact Option.some.inj ((h.2 k hk).symm.trans hb)

/-- MUL's opcode byte is no other instruction's. -/
theorem opcodes_ne_opMUL : opHLT ≠ opMUL ∧ opPRN ≠ opMUL ∧ opLDI ≠ opMUL ∧ opPUSH ≠ opMUL ∧ opPOP ≠ opMUL ∧
    opCALL ≠ opMUL ∧ opRET ≠ opMUL ∧ opJMP ≠ opMUL := by decide

/-- The operand checks of R77 read off the raw bytes: the first operand byte where there is one, and MUL's second. -/
theorem LiesAtPc.exists_invalid_iff {i : Instr} {s : State} (h : LiesAtPc i s) :
    (∃ o ∈ i.registerOperands, 7 < o.toNat) ↔
      (1 ≤ nops (s.memRead s.pc) ∧ 7 < (s.memRead (s.pc + 1)).toNat) ∨
        (s.memRead s.pc = opMUL ∧ 7 < (s.memRead (s.pc + 2)).toNat) := by
  rw [← h.opcode_eq]
  cases i with
  | hlt => simp [Instr.registerOperands, Instr.opcode, opcodes_ne_opMUL]
  | mul a b =>
    have ha : s.memRead (s.pc + 1) = a := h.memRead_eq (k := 1) rfl
    have hb : s.memRead (s.pc + 2) = b := h.memRead_eq (k := 2) rfl
    rw [ha, hb]
    simp [Instr.registerOperands, Instr.opcode]
  | ldi a _ | prn a | push a | pop a | call a | ret a | jmp a =>
    have ha : s.memRead (s.pc + 1) = a := h.memRead_eq (k := 1) rfl
    rw [ha]
    simp [Instr.registerOperands, Instr.opcode, opcodes_ne_opMUL]

theorem setsPC_eq_false_iff (ir : Byte) : setsPC ir = false ↔ ir.toNat / 16 % 2 = 0 := by
  rw [setsPC_eq_decide, decide_eq_false_iff_not]
  omega

/-- The first check that fails decides how a Running step ends; where none fails it does not fault. -/
theorem step_checks_in_order {s : State} (hrun : s.run = .running) : ∃ t, step s = .next t ∧
    if s.memRead s.pc ∉ definedOpcodes then t = s.faultedWith (unknownOpcodeRecord (s.memRead s.pc) s.pc)
    else if s.pc.toNat + nops (s.memRead s.pc) > 255 then
      t = s.faultedWith (addressErrorRecord .operandFetch (s.memRead s.pc) s.pc)
    else if 1 ≤ nops (s.memRead s.pc) ∧ 7 < (s.memRead (s.pc + 1)).toNat then
      t = s.faultedWith (addressErrorRecord .registerIndex (s.memRead s.pc) s.pc)
    else if s.memRead s.pc = opMUL ∧ 7 < (s.memRead (s.pc + 2)).toNat then
      t = s.faultedWith (addressErrorRecord .registerIndex (s.memRead s.pc) s.pc)
    else if (s.memRead s.pc).toNat / 16 % 2 = 0 ∧ s.pc.toNat + (s.memRead s.pc).toNat / 64 + 1 > 255 then
      t = s.faultedWith (addressErrorRecord .pcAdvance (s.memRead s.pc) s.pc)
    else t.run ≠ .faulted ∧ t.fault = s.fault := by
  obtain ⟨t, ht⟩ := step_next_of_running hrun
  have heq : ∀ {u}, step s = .next u → t = u := fun hu => Host.Outcome.next.inj (ht.symm.trans hu)
  refine ⟨t, ht, ?_⟩
  by_cases hdef : s.memRead s.pc ∉ definedOpcodes
  · rw [if_pos hdef]
    exact heq (step_of_not_defined hrun hdef)
  have hdef' := not_not.1 hdef
  by_cases hfetch : s.pc.toNat + nops (s.memRead s.pc) > 255
  · rw [if_neg hdef, if_pos hfetch]
    exact heq (step_of_missing hrun hdef' hfetch)
  have hfetch' := Nat.le_of_not_lt hfetch
  obtain ⟨i, hi⟩ := exists_liesAtPc hdef' hfetch'
  have hinvalid := hi.exists_invalid_iff
  rw [step_of_liesAtPc hrun hi] at heq
  rw [if_neg hdef, if_neg hfetch]
  simp only [← setsPC_eq_false_iff, ← count_eq_div]
  rw [← hi.opcode_eq] at hfetch' hinvalid ⊢
  split_ifs with ha hb hadv
  case pos => exact heq (exec_registerIndex rfl hfetch' (hinvalid.2 (.inl ha)))
  case pos => exact heq (exec_registerIndex rfl hfetch' (hinvalid.2 (.inr hb)))
  all_goals
    have hvalid : ∀ o ∈ i.registerOperands, o.toNat ≤ 7 := fun o ho =>
      Nat.le_of_not_lt fun hlt => (hinvalid.1 ⟨o, ho, hlt⟩).elim ha hb
  case pos => exact heq (exec_pcAdvance rfl hadv.1 rfl hfetch' hvalid hadv.2)
  case neg =>
    obtain ⟨u, hu⟩ := exists_effect (wellFormed_iff.2 hvalid) s
    have hnone : addressFault i s.pc = none := addressFault_eq_none.2
      ⟨hfetch', wellFormed_iff.2 hvalid, fun hs => Nat.le_of_not_lt fun hlt => hadv ⟨hs, hlt⟩⟩
    rw [heq (exec_of_effect hnone hu), advancePc_run, advancePc_fault, hu.fault_eq]
    exact ⟨hu.not_faulted (by simp [hrun]), rfl⟩

/-- Settles O8: `step_checks_in_order`, with the nine bytes and the operand counts written out. -/
theorem stepChecksInOrder : Obligations.StepChecksInOrder :=
  fun _ hrun => step_checks_in_order hrun

/-! ## What a step can do -/

/-- A step takes a fault, having written nothing else, or commits the effect of an instruction lying at pc. -/
theorem step_inv {s t : State} (h : step s = .next t) :
    (∃ r, r ≠ .unsupportedOperationError ∧ t = s.takeFault r (s.memRead s.pc)) ∨
      (t.run ≠ .faulted ∧ ∃ i u, LiesAtPc i s ∧ addressFault i s.pc = none ∧ Effect s u i ∧
        t = advancePc i.opcode s.pc u) := by
  obtain ⟨hrun, ⟨e, -, rfl⟩ | ⟨i, rest, hd, hexec⟩⟩ := step_cases h
  · exact .inl ⟨decodeReason e, by cases e <;> simp [decodeReason], rfl⟩
  · have hi := decode_fetchBytes_iff.1 ⟨rest, hd⟩
    obtain ⟨d, -, rfl⟩ | ⟨hnone, u, hu, rfl⟩ := exec_eq_next_iff.1 hexec
    · exact .inl ⟨.addressError d, by simp, by rw [← hi.opcode_eq, takeFault_addressError]⟩
    · refine .inr ⟨?_, i, u, hi, hnone, hu, rfl⟩
      rw [advancePc_run]
      exact hu.not_faulted (by simp [hrun])

theorem step_faulted {s t : State} (h : step s = .next t) (ht : t.run = .faulted) :
    ∃ r, r ≠ .unsupportedOperationError ∧ t = s.takeFault r (s.memRead s.pc) :=
  (step_inv h).resolve_right fun hc => hc.1 ht

theorem step_committed {s t : State} (h : step s = .next t) (ht : t.run ≠ .faulted) :
    ∃ i u, LiesAtPc i s ∧ addressFault i s.pc = none ∧ Effect s u i ∧ t = advancePc i.opcode s.pc u := by
  obtain ⟨r, -, rfl⟩ | ⟨-, hc⟩ := step_inv h
  · exact absurd rfl ht
  · exact hc

theorem run_eq_of_step {s t : State} (h : step s = .next t) : s.run = .running := (step_cases h).1

/-- Every fault taken leaves a record in its shape (10_state.md R16). -/
theorem takeFault_record (s : State) (r : Reason) (ir : Byte) :
    ∃ f, (s.takeFault r ir).fault = some f ∧ f.Shaped ∧ f.pc = s.pc ∧ f.opcode = ir := by
  refine ⟨_, rfl, ⟨?_, ?_⟩, rfl, rfl⟩
  · cases r <;> rfl
  · cases r <;> simp [Reason.detail, Reason.cause]

/-- Settles O10: a step that ends Faulted took a fault, which writes run and fault only. -/
theorem faultsArePrecise : Obligations.FaultsArePrecise := by
  intro s t h ht
  obtain ⟨r, -, rfl⟩ := step_faulted h ht
  exact ⟨fun _ => rfl, rfl, rfl, fun _ => rfl, takeFault_record s r _⟩

/-- Settles O11: no reason a step can raise is the ALU's. -/
theorem unsupportedOperationNeverRaised : Obligations.UnsupportedOperationNeverRaised := by
  intro s t h ht
  obtain ⟨r, hr, rfl⟩ := step_faulted h ht
  refine ⟨_, rfl, ?_⟩
  cases r with
  | unsupportedOperationError => exact absurd rfl hr
  | addressError _ | unknownOpcodeError => simp [Reason.cause]

/-! ## Single opcodes -/

theorem eq_prn_of_opcode {i : Instr} (h : i.opcode = opPRN) : ∃ a, i = .prn a := by
  cases i with
  | prn a => exact ⟨a, rfl⟩
  | hlt | ldi _ _ | mul _ _ | push _ | pop _ | call _ | ret _ | jmp _ =>
    exact absurd h (by simp only [Instr.opcode]; decide)

/-- HLT lies wherever its one byte does. -/
theorem hlt_liesAtPc {s : State} (h : s.memRead s.pc = opHLT) : LiesAtPc .hlt s := by
  refine ⟨s.pc.isLt, fun k hk => ?_⟩
  obtain rfl : k = 0 := Nat.lt_one_iff.1 hk
  rw [BitVec.add_zero, h]
  rfl

/-- Settles O12: HLT's is the one effect that halts, and at an address below 255 every check of HLT passes. -/
theorem haltedReachedOnlyByHlt : Obligations.HaltedReachedOnlyByHlt := by
  intro s t h
  have hrun := run_eq_of_step h
  have hpc : s.pc.toNat < 256 := s.pc.isLt
  constructor
  · intro ht
    obtain ⟨i, u, hi, hnone, hu, rfl⟩ := step_committed h (by simp [ht])
    have hhlt : i = .hlt := by
      by_contra hne
      rw [advancePc_run, hu.run_eq, if_neg hne, hrun] at ht
      cases ht
    subst hhlt
    obtain ⟨-, -, hadv⟩ := addressFault_eq_none.1 hnone
    have hbelow : s.pc.toNat + 0 + 1 ≤ 255 := hadv setsPC_opHLT
    exact ⟨hi.opcode_eq.symm, by omega⟩
  · rintro ⟨hop, hne⟩
    obtain ⟨-, -, hcommit⟩ := hltHaltsAndAdvances s
    obtain ⟨t', ht', hhalted, -⟩ := hcommit (by omega)
    rw [step_of_liesAtPc hrun (hlt_liesAtPc hop), ht'] at h
    cases h
    exact hhalted

/-- Settles O13: PRN's is the one effect that writes the output, and its operand names the register appended. -/
theorem outputGrowsOnlyByPrn : Obligations.OutputGrowsOnlyByPrn := by
  intro s t h
  split_ifs with hprn
  · obtain ⟨i, u, hi, -, hu, rfl⟩ := step_committed h hprn.2
    obtain ⟨a, rfl⟩ := eq_prn_of_opcode (hi.opcode_eq.trans hprn.1)
    obtain ⟨r, ha, rfl⟩ := hu
    have hbyte : s.memRead (s.pc + 1) = a := hi.memRead_eq (k := 1) rfl
    exact ⟨r, hbyte ▸ ha, by rw [advancePc_out, State.emit_out]⟩
  · obtain ⟨r, -, rfl⟩ | ⟨ht, i, u, hi, -, hu, rfl⟩ := step_inv h
    · rfl
    · rw [advancePc_out]
      exact hu.out_eq fun hop => hprn ⟨hi.opcode_eq.symm.trans hop, ht⟩

/-- Settles O14: the advance check has passed, so the advance is exact (`advancePc_pc_of_advance`). -/
theorem pcAdvancesByCount : Obligations.PcAdvancesByCount := by
  intro s t h ht hbit
  obtain ⟨i, u, hi, hnone, -, rfl⟩ := step_committed h ht
  rw [← hi.opcode_eq, ← setsPC_eq_false_iff] at hbit
  rw [← hi.opcode_eq, ← count_eq_div]
  obtain ⟨-, -, hadv⟩ := addressFault_eq_none.1 hnone
  exact advancePc_pc_of_advance u hbit (hadv hbit)

end Sys2Proof.Machine
end

section
/-! What each instruction writes and what can influence it (10_state.md sections 2, 4 and 5), and the state as its six
components (10_state.md section 1). -/

namespace Sys2Proof.Machine

/-! ## The registers and the cell written -/

section
variable {s : State} {r q : RegIdx} {v c : Byte}

theorem eq_of_reg_setReg_ne (h : (s.setReg r v).reg q ≠ s.reg q) : q = r := by
  by_contra hq
  exact h (by rw [State.reg_setReg, if_neg hq])

theorem eq_of_reg_push_ne (h : (s.push r).reg q ≠ s.reg q) : q = 7 := by
  by_contra hq
  exact h (by rw [State.reg_push, if_neg hq])

theorem eq_of_reg_pop_ne (h : (s.pop r).reg q ≠ s.reg q) : q = r ∨ q = 7 := by
  by_contra hq
  obtain ⟨hr, h7⟩ := not_or.1 hq
  exact h (by rw [State.reg_pop, if_neg h7, if_neg hr])

theorem eq_of_memRead_push_ne (h : (s.push r).memRead c ≠ s.memRead c) : c = s.reg 7 - 1 := by
  by_contra hc
  exact h (by rw [State.memRead_push, if_neg hc])

theorem eq_of_memRead_pop_ne (h : (s.pop r).memRead c ≠ s.memRead c) : c = s.popCleared r := by
  by_contra hc
  exact h (by rw [State.memRead_pop, if_neg hc])

end

/-- What an instruction has changed, its effect has changed: a fault changes no register, nor does the advance. -/
theorem effect_of_reg_ne {i : Instr} {s t : State} {q : RegIdx} (h : exec i s = .next t) (hne : t.reg q ≠ s.reg q) :
    ∃ u, Effect s u i ∧ u.reg q ≠ s.reg q := by
  obtain ⟨d, -, rfl⟩ | ⟨-, u, hu, rfl⟩ := exec_eq_next_iff.1 h
  · exact absurd rfl hne
  · exact ⟨u, hu, by rwa [advancePc_reg] at hne⟩

/-- The same of memory. -/
theorem effect_of_memRead_ne {i : Instr} {s t : State} {c : Byte} (h : exec i s = .next t)
    (hne : t.memRead c ≠ s.memRead c) : ∃ u, Effect s u i ∧ u.memRead c ≠ s.memRead c := by
  obtain ⟨d, -, rfl⟩ | ⟨-, u, hu, rfl⟩ := exec_eq_next_iff.1 h
  · exact absurd rfl hne
  · exact ⟨u, hu, by rwa [advancePc_memRead] at hne⟩

/-- Settles O15: the registers the effects write, instruction by instruction. -/
theorem registersWrittenAsListed : Obligations.RegistersWrittenAsListed := by
  intro i s t q h hne
  obtain ⟨u, hu, hne⟩ := effect_of_reg_ne h hne
  cases i with
  | hlt => obtain rfl := hu; exact hne rfl
  | prn _ | jmp _ => obtain ⟨r, -, rfl⟩ := hu; exact hne rfl
  | ldi _ _ => obtain ⟨r, ha, rfl⟩ := hu; exact eq_of_reg_setReg_ne hne ▸ ha
  | mul _ _ => obtain ⟨ra, rb, ha, -, rfl⟩ := hu; exact eq_of_reg_setReg_ne hne ▸ ha
  | push _ | call _ => obtain ⟨r, -, rfl⟩ := hu; exact eq_of_reg_push_ne (r := r) hne
  | pop _ | ret _ =>
    obtain ⟨r, ha, rfl⟩ := hu
    rcases eq_of_reg_pop_ne (r := r) hne with rfl | h7
    · exact .inl ha
    · exact .inr h7

/-- An operand byte is 7 when it names the stack pointer. -/
theorem operand_eq_seven_iff {a : Byte} {r : RegIdx} (h : a.toNat = r.val) : a = 7 ↔ r = 7 := by
  rw [← BitVec.toNat_inj, Fin.ext_iff, h]
  rfl

/-- The cell a pop clears, by its operand byte. -/
theorem popCleared_eq {a : Byte} {r : RegIdx} (h : a.toNat = r.val) (s : State) :
    s.popCleared r = if a = 7 then s.memRead (s.reg 7) else s.reg 7 := by
  simp only [State.popCleared, operand_eq_seven_iff h]

/-- Settles O18: the cell the effects write, instruction by instruction. -/
theorem memoryChangesOnlyOnTheStack : Obligations.MemoryChangesOnlyOnTheStack := by
  intro i s t c h hne
  obtain ⟨u, hu, hne⟩ := effect_of_memRead_ne h hne
  cases i with
  | hlt => obtain rfl := hu; exact hne rfl
  | prn _ | ldi _ _ | jmp _ => obtain ⟨_, -, rfl⟩ := hu; exact hne rfl
  | mul _ _ => obtain ⟨_, _, -, -, rfl⟩ := hu; exact hne rfl
  | push _ | call _ => obtain ⟨r, -, rfl⟩ := hu; exact eq_of_memRead_push_ne (r := r) hne
  | pop _ | ret _ =>
    obtain ⟨r, ha, rfl⟩ := hu
    exact (eq_of_memRead_pop_ne hne).trans (popCleared_eq ha s)

/-! ## A register that is not named -/

section
variable {s : State} {q r : RegIdx} {v : Byte}

theorem reg_setReg_ne (h : r ≠ q) : (s.setReg q v).reg r = s.reg r := by
  rw [State.reg_setReg, if_neg h]

theorem setReg_comm (h : r ≠ q) (w : Byte) : (s.setReg q v).setReg r w = (s.setReg r w).setReg q v := by
  simp only [State.setReg, Vector.set_comm v w (Fin.val_ne_of_ne h.symm)]

theorem push_setReg (hr : r ≠ q) (h7 : 7 ≠ q) : (s.setReg q v).push r = (s.push r).setReg q v := by
  simp only [State.push, State.sp, Config.spIndex, reg_setReg_ne h7, setReg_comm h7, reg_setReg_ne hr]
  rfl

theorem pop_setReg (hr : r ≠ q) (h7 : 7 ≠ q) : (s.setReg q v).pop r = (s.pop r).setReg q v := by
  have hwrite (u : State) (a w : Byte) : (u.setReg q v).memWrite a w = (u.memWrite a w).setReg q v := rfl
  simp only [State.pop, State.sp, Config.spIndex, reg_setReg_ne h7, State.memRead_setReg, setReg_comm hr, hwrite,
    setReg_comm h7]

end

/-- An effect commutes with setting a register it does not name. -/
theorem Effect.setReg {i : Instr} {s u : State} {q : RegIdx} (h : Effect s u i)
    (hq : ∀ o ∈ i.registerOperands, o.toNat ≠ q.val) (hsp : q = 7 → i.usesStack = false) (v : Byte) :
    Effect (s.setReg q v) (u.setReg q v) i := by
  have hne : ∀ {o : Byte} {r : RegIdx}, o ∈ i.registerOperands → o.toNat = r.val → r ≠ q :=
    fun ho hr heq => hq _ ho (heq ▸ hr)
  have h7 : i.usesStack = true → 7 ≠ q := fun hs heq => by simp [hsp heq.symm] at hs
  cases i with
  | hlt => obtain rfl := h; rfl
  | prn a | jmp a =>
    obtain ⟨r, ha, rfl⟩ := h
    exact ⟨r, ha, by rw [reg_setReg_ne (hne (List.mem_singleton_self a) ha)]; rfl⟩
  | ldi a w =>
    obtain ⟨r, ha, rfl⟩ := h
    exact ⟨r, ha, (setReg_comm (hne (List.mem_singleton_self a) ha) w).symm⟩
  | mul a b =>
    obtain ⟨ra, rb, ha, hb, rfl⟩ := h
    have hra : ra ≠ q := hne (List.mem_cons_self ..) ha
    have hrb : rb ≠ q := hne (List.mem_cons_of_mem _ (List.mem_singleton_self b)) hb
    exact ⟨ra, rb, ha, hb, by rw [reg_setReg_ne hra, reg_setReg_ne hrb, setReg_comm hra]⟩
  | push a =>
    obtain ⟨r, ha, rfl⟩ := h
    exact ⟨r, ha, (push_setReg (hne (List.mem_singleton_self a) ha) (h7 rfl)).symm⟩
  | pop a =>
    obtain ⟨r, ha, rfl⟩ := h
    exact ⟨r, ha, (pop_setReg (hne (List.mem_singleton_self a) ha) (h7 rfl)).symm⟩
  | call a =>
    obtain ⟨r, ha, rfl⟩ := h
    refine ⟨r, ha, ?_⟩
    rw [push_setReg (hne (List.mem_singleton_self a) ha) (h7 rfl), State.memRead_setReg,
      State.sp_eq (State.setReg _ _ _), reg_setReg_ne (h7 rfl)]
    rfl
  | ret a =>
    obtain ⟨r, ha, rfl⟩ := h
    have hr := hne (List.mem_singleton_self a) ha
    refine ⟨r, ha, ?_⟩
    rw [pop_setReg hr (h7 rfl), reg_setReg_ne hr]
    rfl

theorem advancePc_setReg (ir pc0 : Byte) (u : State) (q : RegIdx) (v : Byte) :
    advancePc ir pc0 (u.setReg q v) = (advancePc ir pc0 u).setReg q v := by
  unfold advancePc
  split <;> rfl

/-- Settles O16: the checks do not read the registers, and the effect and the advance commute with the write. -/
theorem unnamedRegisterHasNoInfluence : Obligations.UnnamedRegisterHasNoInfluence := by
  intro i s t q v hq hsp h
  obtain ⟨d, hd, rfl⟩ | ⟨hnone, u, hu, rfl⟩ := exec_eq_next_iff.1 h
  · exact exec_of_addressFault hd
  · rw [← advancePc_setReg]
    exact exec_of_effect hnone (hu.setReg hq hsp v)

/-! ## The output and the fault record -/

/-- No effect reads the output or the fault record: with other contents of either, only these two come out otherwise. -/
theorem Effect.with_out_fault {i : Instr} {s u : State} (h : Effect s u i) (o : List Byte) (f : Option FaultRecord) :
    ∃ o', Effect { s with out := o, fault := f } { u with out := o', fault := f } i := by
  cases i with
  | hlt => obtain rfl := h; exact ⟨o, rfl⟩
  | prn _ => obtain ⟨r, ha, rfl⟩ := h; exact ⟨o ++ [s.reg r], r, ha, rfl⟩
  | mul _ _ => obtain ⟨ra, rb, ha, hb, rfl⟩ := h; exact ⟨o, ra, rb, ha, hb, rfl⟩
  | ldi _ _ | push _ | pop _ | call _ | ret _ | jmp _ => obtain ⟨r, ha, rfl⟩ := h; exact ⟨o, r, ha, rfl⟩

theorem advancePc_with_out_fault (ir pc0 : Byte) (u : State) (o : List Byte) (f : Option FaultRecord) :
    advancePc ir pc0 { u with out := o, fault := f } = { advancePc ir pc0 u with out := o, fault := f } := by
  unfold advancePc
  split <;> rfl

/-- Settles O17: neither the checks nor the effect nor the advance read them. -/
theorem noInstructionReadsOutputOrFault : Obligations.NoInstructionReadsOutputOrFault := by
  intro i s t o f h
  obtain ⟨d, hd, rfl⟩ | ⟨hnone, u, hu, rfl⟩ := exec_eq_next_iff.1 h
  · exact ⟨_, exec_of_addressFault hd, fun _ => rfl, rfl, rfl, fun _ => rfl⟩
  · obtain ⟨o', hu'⟩ := hu.with_out_fault o f
    refine ⟨_, exec_of_effect hnone hu', ?_⟩
    rw [advancePc_with_out_fault]
    exact ⟨fun _ => rfl, rfl, rfl, fun _ => rfl⟩

/-! ## The six components -/

/-- No cell is listed beyond the 256 (20_memory.md R30). -/
theorem read_of_memSize_le {m : Memory} (h : m.wf) {a : Nat} (ha : Config.memSize ≤ a) : m.read a = Memory.unlisted :=
  Memory.read_of_not_mem fun e he => Nat.ne_of_lt (Nat.lt_of_lt_of_le (h.2 e he).1 ha)

/-- Settles O21: memories in canonical form that read alike in the 256 cells read alike everywhere, so they are equal data
(`Memory.ext_of_wf`), and register files are arrays. -/
theorem stateIsItsSixComponents : Obligations.StateIsItsSixComponents := by
  intro s t hs ht hreg hpc hrun hfault hout hmem
  have hread : ∀ a, s.mem.read a = t.mem.read a := by
    intro a
    by_cases ha : a < Config.memSize
    · simpa [State.memRead, Nat.mod_eq_of_lt (show a < 256 from ha)] using hmem (BitVec.ofNat 8 a)
    · rw [read_of_memSize_le hs (Nat.le_of_not_lt ha), read_of_memSize_le ht (Nat.le_of_not_lt ha)]
  have hregs : s.regs = t.regs := regs_ext hreg
  have hmems : s.mem = t.mem := Memory.ext_of_wf hs ht hread
  cases s
  cases t
  simp_all

end Sys2Proof.Machine
end

section
/-! The invariant, the launch, runs and the status outputs (10_state.md sections 4 and 7; 40_cycle_and_dispatch.md section
7; 60_exceptions.md; 70_reset_and_hazards.md sections 1 and 8). -/

namespace Sys2Proof.Machine

/-! ## The invariant -/

/-- Fault entry from a Running state meets the invariant: memory and pc stay, so the opcode recorded is still at pc. -/
theorem takeFault_inv {s : State} (h : s.Inv) (r : Reason) : (s.takeFault r (s.memRead s.pc)).Inv where
  mem_wf := h.mem_wf
  no_record hne := absurd rfl hne
  record _ := takeFault_record s r _

/-- A state that is not Faulted meets the invariant with memory in canonical form and no record. -/
theorem inv_of_not_faulted {t : State} (hwf : t.mem.wf) (hrun : t.run ≠ .faulted) (hfault : t.fault = none) :
    t.Inv where
  mem_wf := hwf
  no_record _ := hfault
  record h := absurd h hrun

/-- Settles O22: a step takes a fault, which leaves a record for the instruction still at pc, or commits an effect, which
keeps the canonical form and writes no record. -/
theorem stepKeepsInvariant : Obligations.StepKeepsInvariant := by
  intro s t hs h
  obtain ⟨r, -, rfl⟩ | ⟨ht, i, u, -, -, hu, rfl⟩ := step_inv h
  · exact takeFault_inv hs r
  · refine inv_of_not_faulted ?_ ht ?_
    · rw [advancePc_mem]
      exact hu.mem_wf hs.mem_wf
    · rw [advancePc_fault, hu.fault_eq]
      exact hs.no_record (by simp [run_eq_of_step h])

/-- Settles O24: every launch is Running without a record, over the memory of `Memory.wf_ofCells`. -/
theorem launchMeetsInvariant : Obligations.LaunchMeetsInvariant :=
  fun _ memInit => inv_of_not_faulted (Memory.wf_ofCells memInit) Run.noConfusion rfl

/-- Settles O23: reset lists no cell. -/
theorem resetMeetsInvariant : Obligations.ResetMeetsInvariant :=
  inv_of_not_faulted Memory.wf_nil Run.noConfusion rfl

/-! ## Runs -/

/-- A run of one step more is a step and then a run. -/
theorem runSteps_succ_iff {n : Nat} {s t : State} :
    runSteps (n + 1) s = .next t ↔ ∃ u, step s = .next u ∧ runSteps n u = .next t := by
  cases h : step s with
  | next _ | fault _ | refused _ => simp [runSteps, Host.Core.run, Host.Check.core_step, h]

/-- What holds of a state and is kept by every step holds of every state a run from it reaches. -/
theorem runSteps_induction {P : State → Prop} (hstep : ∀ s t, P s → step s = .next t → P t) {n : Nat} {s t : State}
    (hs : P s) (h : runSteps n s = .next t) : P t := by
  induction n generalizing s with
  | zero => cases h; exact hs
  | succ n ih =>
    obtain ⟨u, hu, hrest⟩ := runSteps_succ_iff.1 h
    exact ih (hstep s u hs hu) hrest

/-- Settles O25: `runSteps_induction` on the invariant. -/
theorem reachedStatesMeetInvariant : Obligations.ReachedStatesMeetInvariant :=
  fun regInit memInit _ _ h => runSteps_induction stepKeepsInvariant (launchMeetsInvariant regInit memInit) h

/-- A step leaves the output, or appends one value to it. -/
theorem out_isPrefix_of_step {s t : State} (h : step s = .next t) : s.out <+: t.out := by
  have hout := outputGrowsOnlyByPrn s t h
  split_ifs at hout
  · obtain ⟨r, -, ht⟩ := hout
    exact ht ▸ List.prefix_append _ _
  · rw [hout]

/-- Settles O26: `runSteps_induction` on what the output begins with. -/
theorem outputOnlyGrowsAlongARun : Obligations.OutputOnlyGrowsAlongARun :=
  fun _ s _ h => runSteps_induction (P := fun u => s.out <+: u.out)
    (fun _ _ hu hstep => hu.trans (out_isPrefix_of_step hstep)) List.prefix_rfl h

/-! ## The launch -/

/-- Settles O27: reset is the launch with REG_INIT and MEM_INIT all zeros, whose canonical memory lists nothing. -/
theorem resetIsALaunch : Obligations.ResetIsALaunch := by
  refine ⟨rfl, rfl, rfl, rfl, rfl, fun _ => 0, fun _ => 0, ?_⟩
  have hmem : Memory.ofCells (fun _ => 0) = [] := List.filter_eq_nil_iff.2 fun c hc => by
    obtain ⟨a, -, rfl⟩ := List.mem_map.1 hc
    simp [Memory.unlisted]
  rw [State.launch, hmem]
  rfl

theorem State.reg_launch (regInit : Fin 7 → Byte) (memInit : Nat → Byte) (k : Fin 7) :
    (State.launch regInit memInit).reg k.castSucc = regInit k := by
  fin_cases k <;> rfl

/-- Settles O28, with the registers by `State.reg_launch` and the cells by `State.memRead_launch`. -/
theorem launchState : Obligations.LaunchState :=
  fun regInit memInit => ⟨rfl, rfl, rfl, rfl, rfl, State.reg_launch regInit memInit,
    State.memRead_launch regInit memInit, State.memRead_launch regInit memInit 0⟩

/-- Settles O29: MEM_INIT is the image where it reaches and the given cells beyond. -/
theorem launchImageFromZero : Obligations.LaunchImageFromZero := by
  intro regInit image rest
  refine ⟨fun hlong => if_neg (Nat.not_le.2 hlong),
    fun hfits => ⟨_, if_pos hfits, rfl, fun c v hv => ?_, fun c hc => ?_⟩⟩
  · rw [State.memRead_launch, List.getD_eq_getElem?_getD, hv, Option.getD_some]
  · rw [State.memRead_launch, List.getD_eq_default _ _ hc]

/-! ## The status outputs -/

/-- The numbers of the three causes, none of which is 0; an AddressError's is 1. -/
theorem shaped_code {f : FaultRecord} (h : f.Shaped) : f.code ≠ 0 ∧ (f.code = 1 ↔ f.cause = .addressError) := by
  rw [h.code_eq]
  cases f.cause <;> simp

/-- Settles O30: the outputs are views of the record, which the invariant makes present exactly in a Faulted state. -/
theorem statusOutputs : Obligations.StatusOutputs := by
  intro s
  refine ⟨s.haltedFlag_iff, fun hnone => ?_, fun f hf => ?_, fun hinv => ⟨⟨fun hzero hrun => ?_, fun hrun => ?_⟩,
    fun hrun => ?_⟩⟩
  · exact ⟨State.faultCode_of_none hnone, State.faultDetail_eq _ hnone, State.faultPc_eq _ hnone,
      State.faultOpcode_eq _ hnone⟩
  · refine ⟨State.faultCode_of_some hf, State.faultPc_eq _ hf, State.faultOpcode_eq _ hf, ?_⟩
    rw [State.faultDetail_eq _ hf, Option.bind_some]
    rcases f.detail with _ | _ | _ | _ <;> rfl
  · obtain ⟨f, hf, hshaped, -⟩ := hinv.record hrun
    exact (shaped_code hshaped).1 ((State.faultCode_of_some hf).symm.trans hzero)
  · exact State.faultCode_of_none (hinv.no_record hrun)
  · obtain ⟨f, hf, hshaped, hpc, hop⟩ := hinv.record hrun
    rw [State.faultPc_eq _ hf, State.faultOpcode_eq _ hf, State.faultDetail_eq _ hf, State.faultCode_of_some hf,
      (shaped_code hshaped).2, ← hshaped.detail_iff, ← hop, ← hpc]
    simp

end Sys2Proof.Machine
end

section
/-! Instructions in sequence (42_stack.md section 3; 43_control.md sections 1 to 3; 20_memory.md section 9). -/

namespace Sys2Proof.Machine

/-- The stack pointer down by one and up again. -/
theorem eq_of_down_up {x y z : Byte} (hy : y.toNat = (x.toNat + 255) % 256) (hz : z.toNat = (y.toNat + 1) % 256) :
    z = x := by
  have hx : x.toNat < 256 := x.isLt
  exact BitVec.eq_of_toNat_eq (by omega)

/-- Settles O42, from what PUSH and POP do: the cell the push wrote is the one the pop loads. -/
theorem pushThenPopCopies : Obligations.PushThenPopCopies := by
  intro a b ra rb s ha hb hra hrb hpc
  obtain ⟨-, -, -, -, hpush⟩ := pushStoresBelowStackPointer a s
  obtain ⟨t, ht, htpc, htsp, htreg, htcell, -⟩ := hpush ra ha (by omega)
  obtain ⟨-, -, -, -, hpop⟩ := popLoadsAndClears b t
  obtain ⟨u, hu, -, huload, husp, hureg, -⟩ := hpop rb hb (by omega)
  rw [if_neg hrb] at husp
  refine ⟨t, u, ht, hu, ?_, fun q hq => ?_⟩
  · rw [huload hrb, htcell, htreg ra hra]
  · by_cases h7 : q = 7
    · rw [h7]
      exact eq_of_down_up htsp husp
    · rw [hureg q hq h7, htreg q h7]

/-- Settles O44, from what CALL and RET do: the byte CALL pushed is its target, and no return address is on the stack. -/
theorem retAfterCallGoesToTarget : Obligations.RetAfterCallGoesToTarget := by
  intro a b p ra rb s ha hb hrb hpc hp
  obtain ⟨-, -, -, hcall⟩ := callPushesTargetAndJumps a s
  obtain ⟨t, ht, htpc, htsp, -, htcell, -⟩ := hcall ra ha hpc
  obtain ⟨-, -, -, hret⟩ := retPopsAndJumps b (t.setPc p)
  obtain ⟨u, hu, hupc, huload, husp, -, hucell, -⟩ := hret rb hb hp
  rw [if_neg hrb] at husp hucell
  have htarget : u.reg rb = t.pc := (huload hrb).trans (htcell.trans htpc.symm)
  exact ⟨t, u, ht, hu, hupc.trans htarget, htarget, eq_of_down_up htsp husp, hucell⟩

theorem reg_seven_eq_sub_one {s t : State} (h : (t.reg 7).toNat = ((s.reg 7).toNat + 255) % 256) :
    t.reg 7 = s.reg 7 - 1 :=
  BitVec.eq_of_toNat_eq (by rw [h, toNat_sub_one])

theorem pc_eq_add_two {s t : State} (h : t.pc.toNat = s.pc.toNat + 2) : t.pc = s.pc + 2 := by
  have ht : t.pc.toNat < 256 := t.pc.isLt
  exact BitVec.eq_of_toNat_eq (h.trans (toNat_pc_add (k := 2) (by omega)).symm)

/-- Settles O43, from what PUSH does: pc has moved to the cell pushed. -/
theorem pushedByteIsNextOpcode : Obligations.PushedByteIsNextOpcode := by
  intro a r s ha hr hpc hcell
  obtain ⟨-, -, -, -, hpush⟩ := pushStoresBelowStackPointer a s
  obtain ⟨t, ht, htpc, htsp, htreg, htcell, -⟩ := hpush r ha hpc
  refine ⟨t, ht, ?_⟩
  rw [State.fetchOpcode, pc_eq_add_two htpc, ← hcell, ← reg_seven_eq_sub_one htsp, htcell, htreg r hr]

/-- An instruction of two bytes lies at pc when its opcode and its operand are there. -/
theorem liesAtPc_of_two_bytes {i : Instr} {s : State} {ir a : Byte} (hi : encode i = [ir, a]) (hpc : s.pc.toNat ≤ 254)
    (hir : s.memRead s.pc = ir) (ha : s.memRead (s.pc + 1) = a) : LiesAtPc i s := by
  rw [LiesAtPc, hi]
  refine ⟨Nat.add_le_add_right hpc 2, fun k hk => ?_⟩
  match k, hk with
  | 0, _ => rw [BitVec.add_zero, hir]; rfl
  | 1, _ => exact congrArg some ha.symm

/-- Settles O41, from what PUSH and POP do: the cell pushed is none of the four bytes, so the POP is still there to be
fetched, and it clears that cell. -/
theorem pushThenPopRestores : Obligations.PushThenPopRestores := by
  intro n s hn hrun hpc hb0 hb1 hb2 hb3 hapart
  obtain ⟨r, hr⟩ := exists_register hn
  obtain ⟨-, -, -, -, hpush⟩ := pushStoresBelowStackPointer n s
  obtain ⟨t, ht, htpc, htsp, htreg, htcell, htmem, htout, htrun, htfault⟩ := hpush r hr (by omega)
  have hsp : t.reg 7 = s.reg 7 - 1 := reg_seven_eq_sub_one htsp
  have htpc2 : t.pc = s.pc + 2 := pc_eq_add_two htpc
  have hkept : ∀ k < 4, t.memRead (s.pc + BitVec.ofNat 8 k) = s.memRead (s.pc + BitVec.ofNat 8 k) :=
    fun k hk => htmem _ (hsp ▸ (hapart k hk).symm)
  have hstep : step s = exec (.push n) s :=
    step_of_liesAtPc hrun (liesAtPc_of_two_bytes rfl (by omega) hb0 hb1)
  have hstep' : step t = exec (.pop n) t := by
    refine step_of_liesAtPc (htrun.trans hrun) (liesAtPc_of_two_bytes (ir := 0x46) rfl (by omega) ?_ ?_)
    · rw [htpc2]
      exact (hkept 2 (by decide)).trans hb2
    · rw [htpc2, BitVec.add_assoc]
      exact (hkept 3 (by decide)).trans hb3
  obtain ⟨-, -, -, -, hpop⟩ := popLoadsAndClears n t
  obtain ⟨u, hu, hupc, huload, husp, hureg, hucell, humem, huout, hurun, hufault⟩ := hpop r hr (by omega)
  have hcleared : (if r = 7 then t.memRead (t.reg 7) else t.reg 7) = t.reg 7 := by
    split_ifs with h7
    · rw [htcell, h7]
    · rfl
  rw [hcleared] at husp hucell humem
  rw [hsp] at hucell htmem humem
  refine ⟨t, u, hstep.trans ht, hstep'.trans hu, fun q => ?_, hucell, fun c hc => (humem c hc).trans (htmem c hc),
    by omega, huout.trans htout, hurun.trans (htrun.trans hrun), hufault.trans htfault⟩
  by_cases h7 : q = 7
  · rw [h7]
    exact eq_of_down_up htsp husp
  by_cases hqr : q = r
  · subst hqr
    rw [huload h7, htcell, htreg q h7]
  · rw [hureg q hqr h7, htreg q h7]

/-- Settles O45: such a step leaves the very same state, so by induction every number of steps does. -/
theorem jumpToItselfNeverEnds : Obligations.JumpToItselfNeverEnds := by
  intro r s hrun hpc hop hr hself n
  have hstep : step s = .next s := by
    rw [step_of_liesAtPc hrun (liesAtPc_of_two_bytes (i := .jmp _) rfl hpc hop rfl),
      exec_setting (i := .jmp _) ⟨r, hr, rfl⟩ setsPC_opJMP hpc, hself]
    rfl
  induction n with
  | zero => rfl
  | succ n ih => exact runSteps_succ_iff.2 ⟨s, hstep, ih⟩

end Sys2Proof.Machine
end
